-- ==== Sys2Proof/Word.lean ====
section
/-! DEFINITION. The two bit-vector types of the machine (`spec/00_scope.md` R5, R7). -/

namespace Sys2Proof

/-- `Word32` of `spec/00_scope.md` R7: a program-store word, a stack entry, an immediate, an ALU result, `pc`. `u(v)` is
`v.toNat`, `s(v)` is `v.toInt`. -/
abbrev Word := BitVec 32

/-- `STEP_WIDTH` of `spec/00_scope.md` R5: `steps` and `step_limit`. -/
abbrev Count := BitVec 64

end Sys2Proof
end

