-- ==== Sys2Proof/Names.lean ====
section
/-! DEFINITION. The closed sets of names the spec gives: opcodes, run states, causes. -/

namespace Sys2Proof

/-- The closed enumeration of opcodes (`spec/30_encoding.md` R63), in the listed order. `brk` is `Break`, `ovr` is `Over`. -/
inductive Opcode where
  | brk | nop | halt | push | print | jne | swap | dup | je | inc | add | sub | mul | rand | dec | drop | ovr | mod | jump
  deriving DecidableEq, Repr

/-- The enumeration as a list, in the order of R63. -/
def Opcode.all : List Opcode :=
  [.brk, .nop, .halt, .push, .print, .jne, .swap, .dup, .je, .inc, .add, .sub, .mul, .rand, .dec, .drop, .ovr, .mod, .jump]

/-- The values of `state` (`spec/10_state.md` R23). `brk` is `Break`. -/
inductive RunState where
  | running
  | halted
  | brk
  deriving DecidableEq, Repr

/-- The values of `cause` (`spec/60_exceptions.md` R171), code 0 first. -/
inductive Cause where
  | none
  | breakInsn
  | undefinedOpcode
  | pcOutOfBounds
  | immOutOfBounds
  | stackOverflow
  | stackUnderflow
  | modByZero
  deriving DecidableEq, Repr

/-- The causes the decoder can hand to a `Break` as `dcause` (`spec/40_machine_control.md` R92): the explicit opcode, and
the three reasons for which the decoder puts a `Break` in place of what it read. -/
inductive DecodeCause where
  | breakInsn
  | undefinedOpcode
  | pcOutOfBounds
  | immOutOfBounds
  deriving DecidableEq, Repr

/-- The category a `dcause` stands for. -/
def DecodeCause.toCause : DecodeCause → Cause
  | .breakInsn => .breakInsn
  | .undefinedOpcode => .undefinedOpcode
  | .pcOutOfBounds => .pcOutOfBounds
  | .immOutOfBounds => .immOutOfBounds

end Sys2Proof
end

