-- ==== Sys2Proof/Config.lean ====
section
/-! DEFINITION. What is fixed for one machine (`spec/00_scope.md` R5) and the free values the spec leaves open. -/

namespace Sys2Proof

/-- The opcode words of the mnemonics other than `Break`, whose word is 0 on every machine. The spec asks for this map as a
configuration value (`spec/30_encoding.md` R63). -/
structure OpcodeMap where
  nop : Word
  halt : Word
  push : Word
  print : Word
  jne : Word
  swap : Word
  dup : Word
  je : Word
  inc : Word
  add : Word
  sub : Word
  mul : Word
  rand : Word
  dec : Word
  drop : Word
  ovr : Word
  mod : Word
  jump : Word
  deriving DecidableEq, Repr

/-- The total map from the 19 mnemonics to their words, `Break` at 0 (`spec/30_encoding.md` R63). -/
def OpcodeMap.word (m : OpcodeMap) : Opcode → Word
  | .brk => 0
  | .nop => m.nop
  | .halt => m.halt
  | .push => m.push
  | .print => m.print
  | .jne => m.jne
  | .swap => m.swap
  | .dup => m.dup
  | .je => m.je
  | .inc => m.inc
  | .add => m.add
  | .sub => m.sub
  | .mul => m.mul
  | .rand => m.rand
  | .dec => m.dec
  | .drop => m.drop
  | .ovr => m.ovr
  | .mod => m.mod
  | .jump => m.jump

/-- The parameters of one machine (`spec/00_scope.md` R5): `PROGRAM_SIZE` and `STACK_CAPACITY`, both OPEN there, and the
opcode map of R63. A statement about every state quantifies over all of them (log entries 3, 4). -/
structure Config where
  programSize : Nat
  stackCapacity : Nat
  opcodes : OpcodeMap
  deriving DecidableEq, Repr

/-- The free values of the random source: `randDraw n` is the value `rand_data` shows at the `n`-th draw
(`spec/60_exceptions.md` R186: "a free input under no law"). It has no body, so nothing can be proved of a draw's value
(log entry 6). -/
opaque Config.randDraw : Nat → Word

end Sys2Proof
end

