-- ==== Sys2Proof/Syntax.lean ====
section
/-! DEFINITION. The instructions, one constructor per row of `spec/opcode_table.json`. -/

namespace Sys2Proof

/-- A decoded instruction (`spec/10_state.md` R30), one constructor per opcode of `spec/30_encoding.md` R63. The operand of a
2-word instruction is its immediate word (R65). `brk` is `Break` with the `dcause` of R66: the explicit opcode has
`breakInsn`; the other three are what the decoder answers in place of an instruction it cannot give (log entry 10). `ovr` is `Over`. -/
inductive Instr where
  | brk (dcause : DecodeCause)
  | nop
  | halt
  | push (imm : Word)
  | print
  | jne (imm : Word)
  | swap
  | dup
  | je (imm : Word)
  | inc
  | add
  | sub
  | mul
  | rand
  | dec
  | drop
  | ovr
  | mod
  | jump (imm : Word)
  deriving DecidableEq, Repr

/-- The opcode of an instruction. -/
def Instr.opcode : Instr → Opcode
  | .brk _ => .brk
  | .nop => .nop
  | .halt => .halt
  | .push _ => .push
  | .print => .print
  | .jne _ => .jne
  | .swap => .swap
  | .dup => .dup
  | .je _ => .je
  | .inc => .inc
  | .add => .add
  | .sub => .sub
  | .mul => .mul
  | .rand => .rand
  | .dec => .dec
  | .drop => .drop
  | .ovr => .ovr
  | .mod => .mod
  | .jump _ => .jump

end Sys2Proof
end

