-- ==== Sys2Proof/WellFormed.lean ====
section
/-! DEFINITION. Which instructions, opcode maps and configurations are well formed. -/

namespace Sys2Proof

/-- An instruction that a word sequence of its own stands for. Every immediate is allowed (`spec/30_encoding.md` R65); a
`Break` is only when its `dcause` is `BREAK_INSN`, the other three being the decoder's answer to words (or to a `pc`) that
hold no instruction (R66). -/
def Instr.wellFormed : Instr → Bool
  | .brk dcause => dcause == .breakInsn
  | .nop | .halt | .push _ | .print | .jne _ | .swap | .dup | .je _ | .inc | .add | .sub | .mul | .rand | .dec | .drop
  | .ovr | .mod | .jump _ => true

/-- "A total map from the 19 mnemonics to distinct 32-bit words with `Break` at 0" (`spec/30_encoding.md` R63). -/
abbrev OpcodeMap.wf (m : OpcodeMap) : Prop := (Opcode.all.map m.word).Nodup

/-- The constraints of `spec/00_scope.md` R5 on the two sizes, and R63's on the opcode map. -/
abbrev Config.wf (c : Config) : Prop :=
  1 ≤ c.programSize ∧ c.programSize ≤ 2 ^ 31 ∧ 1 ≤ c.stackCapacity ∧ c.opcodes.wf

end Sys2Proof
end

