-- ==== Sys2Proof/Decode.lean ====
section
/-! DEFINITION. The opcode words of the spec, the decoder, and after it the encoder (`spec/30_encoding.md`). -/

namespace Sys2Proof

/-- The opcode words of the table of `spec/30_encoding.md` R63. -/
def specOpcodeMap : OpcodeMap :=
  { nop := 1, halt := 2, push := 3, print := 4, jne := 5, swap := 6, dup := 7, je := 8, inc := 9, add := 10, sub := 11,
    mul := 12, rand := 13, dec := 14, drop := 15, ovr := 16, mod := 17, jump := 18 }

/-- The mnemonic as R63 and R71 spell it. -/
def Opcode.mnemonic : Opcode → String
  | .brk => "Break"
  | .nop => "Nop"
  | .halt => "Halt"
  | .push => "Push"
  | .print => "Print"
  | .jne => "JNE"
  | .swap => "Swap"
  | .dup => "Dup"
  | .je => "JE"
  | .inc => "Inc"
  | .add => "Add"
  | .sub => "Sub"
  | .mul => "Mul"
  | .rand => "Rand"
  | .dec => "Dec"
  | .drop => "Drop"
  | .ovr => "Over"
  | .mod => "Mod"
  | .jump => "Jump"

/-- The length classes of R64: the 2-word opcodes are `Push`, `JE`, `JNE`, `Jump`. -/
def Opcode.isTwoWord : Opcode → Bool
  | .push | .je | .jne | .jump => true
  | .brk | .nop | .halt | .print | .swap | .dup | .inc | .add | .sub | .mul | .rand | .dec | .drop | .ovr | .mod => false

/-- The length in words that R64 gives an opcode. -/
def Opcode.length (op : Opcode) : Nat := if op.isTwoWord then 2 else 1

/-- The opcode a word stands for: the word is compared as a whole (R61). Nothing for an undefined word (R67). -/
def OpcodeMap.opcodeOf (m : OpcodeMap) (w : Word) : Option Opcode := Opcode.all.find? (fun op => m.word op == w)

/-- The decoder's answer (R66): the opcode with its `imm` and `dcause` as one instruction, and the length by which `pc`
advances. -/
structure Decoded where
  instr : Instr
  len : Nat
  deriving DecidableEq, Repr

/-- A 2-word opcode takes the next word as its immediate; with no next word in the store it is truncated to a 1-word
`Break` (R66, R68). -/
def withImmediate (mk : Word → Instr) : List Word → Decoded
  | [] => ⟨.brk .immOutOfBounds, 1⟩
  | imm :: _ => ⟨mk imm, 2⟩

/-- The instruction of a known opcode, given the words after it. -/
def decodeOpcode (op : Opcode) (rest : List Word) : Decoded :=
  match op with
  | .brk => ⟨.brk .breakInsn, 1⟩
  | .nop => ⟨.nop, 1⟩
  | .halt => ⟨.halt, 1⟩
  | .push => withImmediate .push rest
  | .print => ⟨.print, 1⟩
  | .jne => withImmediate .jne rest
  | .swap => ⟨.swap, 1⟩
  | .dup => ⟨.dup, 1⟩
  | .je => withImmediate .je rest
  | .inc => ⟨.inc, 1⟩
  | .add => ⟨.add, 1⟩
  | .sub => ⟨.sub, 1⟩
  | .mul => ⟨.mul, 1⟩
  | .rand => ⟨.rand, 1⟩
  | .dec => ⟨.dec, 1⟩
  | .drop => ⟨.drop, 1⟩
  | .ovr => ⟨.ovr, 1⟩
  | .mod => ⟨.mod, 1⟩
  | .jump => withImmediate .jump rest

/-- The decoder (R66), on the words of the store from `pc` on (as many as were read): total (R69). No word at all is a `pc`
outside the store; a word outside the opcode set is a 1-word `Break` with `UNDEFINED_OPCODE` (R67). -/
def decodeWords (m : OpcodeMap) : List Word → Decoded
  | [] => ⟨.brk .pcOutOfBounds, 1⟩
  | w :: rest =>
    match m.opcodeOf w with
    | none => ⟨.brk .undefinedOpcode, 1⟩
    | some op => decodeOpcode op rest

/-- The operand word of an instruction, if its format has one (R61, R62). -/
def Instr.immediate : Instr → List Word
  | .push imm | .jne imm | .je imm | .jump imm => [imm]
  | .brk _ | .nop | .halt | .print | .swap | .dup | .inc | .add | .sub | .mul | .rand | .dec | .drop | .ovr | .mod => []

/-- The words of a well-formed instruction: the opcode word of R63, then the immediate word of format W2 (R61, R62). -/
def encode (m : OpcodeMap) (i : Instr) : List Word := m.word i.opcode :: i.immediate

/-- The two 32-bit words of an instruction given as one number whose bit 0 is the least significant bit of the first word
and whose second word is bits 63..32; the bits from `nbits` on are 0 (log entry 11). -/
def tableWords (nbits w : Nat) : List Word :=
  [BitVec.ofNat 32 (w % 2 ^ nbits), BitVec.ofNat 32 ((w % 2 ^ nbits) >>> 32)]

/-- What the decoder reads, with the opcode words of R63, from an instruction numbered as `spec/opcode_table.json` numbers
it. The decoder is total (R69), so it always answers. -/
def decodeTableWord (nbits w : Nat) : Option Instr := some (decodeWords specOpcodeMap (tableWords nbits w)).instr

/-- The displacement by which a branch at address `a` reaches `target`: `target - (a + 2)` (R72). -/
def branchDisplacement (target a : Word) : Word := target - (a + 2)

end Sys2Proof
end

