-- ==== Sys2Proof/Machine/State.lean ====
section
/-! DEFINITION. The machine's state (`spec/10_state.md`), the reasons to stop, and the state after reset. -/

namespace Sys2Proof.Machine

/-- A memory of 32-bit words by index, as a list of cells in one canonical form (`Memory.wf`). Both storage spaces of the
machine (`spec/20_memory.md` R40) move whole words only (R44), so a cell holds a word, not a byte (log entry 1). -/
abbrev Memory := List (Nat × Word)

/-- The architectural state (`spec/10_state.md` R20) and the parameters it runs under. -/
structure State where
  /-- `PROGRAM_SIZE`, `STACK_CAPACITY` and the opcode map: constant (`spec/00_scope.md` R5; log entries 3, 4). -/
  cfg : Config
  /-- The program store: slots `0..PROGRAM_SIZE-1` (R27). -/
  program : Memory
  /-- The program counter (R21). -/
  pc : Word
  /-- The index of the top entry, -1 when the stack is empty (R22). -/
  sp : Int
  /-- `Running`, `Halted` or `Break` (R23). -/
  state : RunState
  /-- The step counter (R25). -/
  steps : Count
  /-- The operand-stack array: entries `0..STACK_CAPACITY-1` (R26). -/
  stack : Memory
  /-- The category of the fault that ended the run (R28). -/
  cause : Cause
  /-- `limit_en_q`: a step limit applies (R29). -/
  limitEnQ : Bool
  /-- `step_limit_q`: the step limit (R29). -/
  stepLimitQ : Count
  /-- The output port after the last step: `none` is `out_valid = 0`, `some v` is `out_valid = 1` with `out_data = v`
  (`spec/60_exceptions.md` R185; log entry 7). -/
  outPort : Option Word
  /-- The output sequence of the run so far, oldest first (`spec/40_machine_control.md` R87; the model's own field). -/
  output : List Word
  /-- How many random draws have been made (the model's own field; log entry 6). -/
  draws : Nat
  deriving DecidableEq, Repr

/-- The reasons for which the model stops. Every fault of the spec is a next state in `Break` instead
(`spec/60_exceptions.md` R170). -/
inductive Fault where
  /-- Raised by the `Push` and `Pop` micro-operations when `sp` is outside R22's range `[-1, STACK_CAPACITY-1]`, so that
  the entry they address does not exist. Safe: the model stops, and no run from reset reaches it (log entry 8). -/
  | stackEntryAbsent
  deriving DecidableEq, Repr

/-- The refusals of the model. -/
inductive Refusal where
  /-- Raised by an arm of `exec` whose instruction has no meaning yet, with the mnemonic of `spec/opcode_table.json`. Safe:
  the model stops. No arm raises it. -/
  | notModelled (mnemonic : String)
  deriving DecidableEq, Repr

/-- What an instruction's meaning answers. -/
abbrev Result := Host.Outcome State Fault Refusal

/-- The machine right after reset (`spec/10_state.md` R36). The spec leaves open the two sizes (log entry 3), the limit
inputs (log entry 5), the image (nothing is loaded: log entry 12) and the stack entries (log entry 16). -/
def State.reset : State :=
  { cfg := { programSize := 16, stackCapacity := 4, opcodes := specOpcodeMap }
    program := []
    pc := 0
    sp := -1
    state := .running
    steps := 0
    stack := []
    cause := .none
    limitEnQ := false
    stepLimitQ := 0
    outPort := none
    output := []
    draws := 0 }

end Sys2Proof.Machine
end

