-- ==== Sys2Proof/Machine/Alu.lean ====
section
/-! DEFINITION. The ALU: unsigned 32-bit arithmetic modulo 2^32 (`spec/43_arithmetic.md` R130). -/

namespace Sys2Proof.Machine

/-- `a + 1`. -/
def aluInc (a : Word) : Word := a + 1

/-- `a - 1`; 0 gives 0xFFFFFFFF. -/
def aluDec (a : Word) : Word := a - 1

/-- `a + b`. -/
def aluAdd (a b : Word) : Word := a + b

/-- `a - b`. -/
def aluSub (a b : Word) : Word := a - b

/-- `a * b`: the low 32 bits of the product. -/
def aluMul (a b : Word) : Word := a * b

/-- `a mod b` for `b` other than 0: the unsigned remainder. `Mod` does not compute it for `b = 0`. -/
def aluMod (a b : Word) : Word := a.umod b

end Sys2Proof.Machine
end

