-- ==== Sys2Proof/Machine/Ops.lean ====
section
/-! DEFINITION. The named operations over memory and registers: the micro-operations of `spec/00_scope.md` R8. -/

namespace Sys2Proof.Machine

/-! ### Memories of words -/

/-- What a cell that is not listed reads as (log entries 2, 16). -/
def Memory.unlisted : Word := 0

/-- The word at index `a`. -/
def Memory.read (m : Memory) (a : Nat) : Word := (m.lookup a).getD Memory.unlisted

/-- Put a cell where its index belongs. -/
def Memory.insertCell (c : Nat × Word) : Memory → Memory
  | [] => [c]
  | d :: m => if c.1 < d.1 then c :: d :: m else d :: Memory.insertCell c m

/-- Write the word `v` at index `a`; a cell that reads as an unlisted one is not listed. -/
def Memory.write (m : Memory) (a : Nat) (v : Word) : Memory :=
  let kept := m.filter (fun c => c.1 != a)
  if v = Memory.unlisted then kept else Memory.insertCell (a, v) kept

/-- The canonical form: indices strictly rising, no cell that reads as an unlisted one. -/
abbrev Memory.wf (m : Memory) : Prop := m.Pairwise (fun c d => c.1 < d.1) ∧ ∀ c ∈ m, c.2 ≠ Memory.unlisted

/-- Every listed cell lies below the size of its space. -/
abbrev Memory.below (m : Memory) (size : Nat) : Prop := ∀ c ∈ m, c.1 < size

/-- Write words at index `a` and the indices after it. -/
def Memory.writeFrom (m : Memory) (a : Nat) : List Word → Memory
  | [] => m
  | w :: ws => (m.writeFrom (a + 1) ws).write a w

/-! ### Reads -/

/-- `ProgRead(addr)` (`spec/20_memory.md` R42). The fetch issues it with `addr < PROGRAM_SIZE` only (R43). -/
def State.progRead (s : State) (addr : Nat) : Word := s.program.read addr

/-- `stack[i]` (`spec/10_state.md` R26), for an index `i` of the array. -/
def State.entry (s : State) (i : Int) : Word := s.stack.read i.toNat

/-! ### Writes of the state, each used by one micro-operation -/

/-- The writes of a `Push` that has room: `sp <- sp + 1; stack[sp] <- v` (`spec/20_memory.md` R47). -/
def State.pushed (v : Word) (s : State) : State :=
  { s with sp := s.sp + 1, stack := s.stack.write (s.sp + 1).toNat v }

/-- The write of a `Pop` that finds an entry: `sp <- sp - 1`; the entry keeps its value (R48, R49). -/
def State.popped (s : State) : State := { s with sp := s.sp - 1 }

/-- The writes of `raise Break(c)`, in order: `cause <- c; state <- Break` (`spec/60_exceptions.md` R170). -/
def State.broken (c : Cause) (s : State) : State := { s with cause := c, state := .brk }

/-- `state <- Halted` (`spec/40_machine_control.md` R91). -/
def State.haltedNow (s : State) : State := { s with state := .halted }

/-- `Emit(v)`: one output event (`spec/60_exceptions.md` R185). -/
def State.emitted (v : Word) (s : State) : State := { s with outPort := some v, output := s.output ++ [v] }

/-- One draw has been made (R186; log entry 6). -/
def State.drawn (s : State) : State := { s with draws := s.draws + 1 }

/-- `pc <- target` (`spec/10_state.md` R21). -/
def State.atPc (target : Word) (s : State) : State := { s with pc := target }

/-! ### Micro-operations

Each takes what comes after it as its last argument `k`. To abandon the rest of the instruction's effect is to answer
without calling `k` (`spec/00_scope.md` R9). -/

/-- `raise Break(c)` (`spec/60_exceptions.md` R170): the one way an exception is taken. It is the last thing an effect
does; it saves nothing and goes nowhere (R180), and nothing returns from it but reset (R181: `State.rst`). -/
def raiseBreak (c : Cause) (s : State) : Result := .next (s.broken c)

/-- `Push(v)` (`spec/20_memory.md` R47). The last case is a `sp` below -1 (log entry 8). -/
def push (v : Word) (s : State) (k : State → Result) : Result :=
  if s.sp ≥ (s.cfg.stackCapacity : Int) - 1 then raiseBreak .stackOverflow s
  else if -1 ≤ s.sp then k (s.pushed v)
  else .fault .stackEntryAbsent

/-- `Pop()` (`spec/20_memory.md` R48). The last case is a `sp` above `STACK_CAPACITY - 1` (log entry 8). -/
def pop (s : State) (k : Word → State → Result) : Result :=
  if s.sp < 0 then raiseBreak .stackUnderflow s
  else if s.sp < s.cfg.stackCapacity then k (s.entry s.sp) s.popped
  else .fault .stackEntryAbsent

/-- `Emit(v)` (`spec/60_exceptions.md` R185). -/
def emit (v : Word) (s : State) (k : State → Result) : Result := k (s.emitted v)

/-- `DrawRand()` (`spec/60_exceptions.md` R186): the value the random source shows at this draw, a free value. -/
def drawRand (s : State) (k : Word → State → Result) : Result := k (Config.randDraw s.draws) s.drawn

/-- The end of an effect. -/
def done (s : State) : Result := .next s

/-! ### Reset -/

/-- `rst`, with the limit inputs it latches (`spec/70_reset_and_hazards.md` R200, `spec/10_state.md` R29, R36). The stack
array, the program store and the parameters stay; the output sequence of the new run is empty; the random source is not
part of the machine and goes on (log entry 6). -/
def State.rst (limitEn : Bool) (stepLimit : Count) (s : State) : State :=
  { s with
    pc := 0
    sp := -1
    state := .running
    steps := 0
    cause := .none
    limitEnQ := limitEn
    stepLimitQ := stepLimit
    outPort := none
    output := [] }

/-- The host loads the program store while `rst` is asserted (`spec/70_reset_and_hazards.md` R202): the image from slot 0,
nothing beyond `PROGRAM_SIZE`; the slots after it get the recommended fill 0 (`Break`). -/
def State.load (image : List Word) (s : State) : State :=
  { s with program := Memory.writeFrom [] 0 (image.take s.cfg.programSize) }

end Sys2Proof.Machine
end

