-- ==== Sys2Proof/Machine/Flags.lean ====
section
/-! DEFINITION. The machine has no flags (`spec/10_state.md` R32): the one condition is the zero test of a popped value. -/

namespace Sys2Proof.Machine

/-- The zero test of `Mod`, `JE` and `JNE` (`spec/40_machine_control.md` R89). -/
def isZero (v : Word) : Bool := v == 0

/-- The condition under which `JE` branches (`spec/44_branch.md` R151). -/
def jeTaken (v : Word) : Bool := isZero v

/-- The condition under which `JNE` branches (`spec/44_branch.md` R152). -/
def jneTaken (v : Word) : Bool := !isZero v

end Sys2Proof.Machine
end

