-- ==== Sys2Proof/Machine/Operands.lean ====
section
/-! DEFINITION. The operand forms: one or two popped entries, or the immediate word. -/

namespace Sys2Proof.Machine

/-- The two operands of a two-operand instruction: `a <- Pop(); b <- Pop()`, `a` the old top, `b` the entry below it
(`spec/43_arithmetic.md`, preamble; `spec/90_conflicts.md` C1). -/
def popTwo (s : State) (k : Word → Word → State → Result) : Result :=
  pop s fun a s => pop s fun b s => k a b s

/-- The shape of `Inc` and `Dec`: `a <- Pop(); Push(f a)`. -/
def replaceTop (f : Word → Word) (s : State) : Result :=
  pop s fun a s => push (f a) s done

/-- The shape of `Add`, `Sub` and `Mul`: `a <- Pop(); b <- Pop(); Push(f a b)`, the top as the left operand. -/
def combineTopTwo (f : Word → Word → Word) (s : State) : Result :=
  popTwo s fun a b s => push (f a b) s done

/-- `pc <- pc + imm`, modulo 2^32, on the pre-advance `pc` (`spec/44_branch.md` R150). -/
def branchBy (imm : Word) (s : State) : Result := done (s.atPc (s.pc + imm))

/-- The shape of `JE` and `JNE`: the popped value is consumed whether or not the branch is taken (`spec/44_branch.md` R151,
R152). -/
def branchIf (taken : Word → Bool) (imm : Word) (s : State) : Result :=
  pop s fun v s => if taken v then branchBy imm s else done s

end Sys2Proof.Machine
end

