-- ==== Sys2Proof/Machine/Arithmetic.lean ====
section
/-! DEFINITION. `Inc`, `Dec`, `Add`, `Sub`, `Mul`, `Mod` (`spec/43_arithmetic.md`). -/

namespace Sys2Proof.Machine

/-- `Inc` (R131). -/
def execInc (s : State) : Result := replaceTop aluInc s

/-- `Dec` (R132). -/
def execDec (s : State) : Result := replaceTop aluDec s

/-- `Add` (R133). -/
def execAdd (s : State) : Result := combineTopTwo aluAdd s

/-- `Sub`: top minus second (R134). -/
def execSub (s : State) : Result := combineTopTwo aluSub s

/-- `Mul` (R135). -/
def execMul (s : State) : Result := combineTopTwo aluMul s

/-- `Mod`: top modulo second; a second entry of 0 raises `MOD_BY_ZERO` after both pops (R136). -/
def execMod (s : State) : Result :=
  popTwo s fun a b s => if isZero b then raiseBreak .modByZero s else push (aluMod a b) s done

end Sys2Proof.Machine
end

