-- ==== Sys2Proof/Machine/Branch.lean ====
section
/-! DEFINITION. `JE`, `JNE`, `Jump` (`spec/44_branch.md`). -/

namespace Sys2Proof.Machine

/-- `JE imm`: `v <- Pop(); if v == 0: pc <- pc + imm` (R151). -/
def execJe (imm : Word) (s : State) : Result := branchIf jeTaken imm s

/-- `JNE imm`: `v <- Pop(); if v != 0: pc <- pc + imm` (R152). -/
def execJne (imm : Word) (s : State) : Result := branchIf jneTaken imm s

/-- `Jump imm`: `pc <- pc + imm` (R153). -/
def execJump (imm : Word) (s : State) : Result := branchBy imm s

end Sys2Proof.Machine
end

