-- ==== Sys2Proof/Machine/Control.lean ====
section
/-! DEFINITION. `Nop`, `Halt`, `Break` (`spec/40_machine_control.md`). -/

namespace Sys2Proof.Machine

/-- `Nop` has no effect (R90). -/
def execNop (s : State) : Result := done s

/-- `Halt`: `state <- Halted` (R91). -/
def execHalt (s : State) : Result := done s.haltedNow

/-- `Break`: `raise Break(dcause)` (R92). -/
def execBreak (dcause : DecodeCause) (s : State) : Result := raiseBreak dcause.toCause s

end Sys2Proof.Machine
end

