-- ==== Sys2Proof/Machine/Io.lean ====
section
/-! DEFINITION. `Print` and `Rand` (`spec/42_io.md`). -/

namespace Sys2Proof.Machine

/-- `Print`: `v <- Pop(); Emit(v)` (R120). -/
def execPrint (s : State) : Result := pop s fun v s => emit v s done

/-- `Rand`: `r <- DrawRand(); Push(r)` (R121). -/
def execRand (s : State) : Result := drawRand s fun r s => push r s done

end Sys2Proof.Machine
end

