-- ==== Sys2Proof/Machine/StackOps.lean ====
section
/-! DEFINITION. `Push`, `Swap`, `Dup`, `Over`, `Drop` (`spec/41_stack.md`). -/

namespace Sys2Proof.Machine

/-- `Push imm`: `Push(imm)` (R100). -/
def execPush (imm : Word) (s : State) : Result := push imm s done

/-- `Swap`: `a <- Pop(); b <- Pop(); Push(a); Push(b)` (R101). -/
def execSwap (s : State) : Result :=
  popTwo s fun a b s => push a s fun s => push b s done

/-- `Dup`: `a <- Pop(); Push(a); Push(a)` (R102). -/
def execDup (s : State) : Result :=
  pop s fun a s => push a s fun s => push a s done

/-- `Over`: `a <- Pop(); b <- Pop(); Push(b); Push(a); Push(b)` (R103). -/
def execOver (s : State) : Result :=
  popTwo s fun a b s => push b s fun s => push a s fun s => push b s done

/-- `Drop`: `Pop()`, the value discarded (R104). -/
def execDrop (s : State) : Result := pop s fun _ s => done s

end Sys2Proof.Machine
end

