-- ==== Sys2Proof/Machine/Dispatch.lean ====
section
/-! DEFINITION. `Execute(op, imm, dcause)` of `spec/40_machine_control.md` R82: one arm per opcode. -/

namespace Sys2Proof.Machine

def exec (i : Instr) (s : State) : Host.Outcome State Fault Refusal :=
  match i with
  | .brk dcause => Sys2Proof.Machine.execBreak dcause s
  | .nop => Sys2Proof.Machine.execNop s
  | .halt => Sys2Proof.Machine.execHalt s
  | .push imm => Sys2Proof.Machine.execPush imm s
  | .print => Sys2Proof.Machine.execPrint s
  | .jne imm => Sys2Proof.Machine.execJne imm s
  | .swap => Sys2Proof.Machine.execSwap s
  | .dup => Sys2Proof.Machine.execDup s
  | .je imm => Sys2Proof.Machine.execJe imm s
  | .inc => Sys2Proof.Machine.execInc s
  | .add => Sys2Proof.Machine.execAdd s
  | .sub => Sys2Proof.Machine.execSub s
  | .mul => Sys2Proof.Machine.execMul s
  | .rand => Sys2Proof.Machine.execRand s
  | .dec => Sys2Proof.Machine.execDec s
  | .drop => Sys2Proof.Machine.execDrop s
  | .ovr => Sys2Proof.Machine.execOver s
  | .mod => Sys2Proof.Machine.execMod s
  | .jump imm => Sys2Proof.Machine.execJump imm s

end Sys2Proof.Machine
end

