-- ==== Sys2Proof/Machine/Sequencer.lean ====
section
/-! DEFINITION. What a step does around `Execute`: the gate, the fetch, the count and the advance
(`spec/40_machine_control.md` R80 to R84, `spec/20_memory.md` R43). -/

namespace Sys2Proof.Machine

/-- `CanStep()` (R80). -/
def State.canStep (s : State) : Bool :=
  s.state == .running && (!s.limitEnQ || decide (s.steps.toNat < s.stepLimitQ.toNat))

/-- The addresses a fetch at `pc` reads, in order (`spec/20_memory.md` R43): `pc` if it is inside the store, then `pc + 1` if
the opcode word is a 2-word opcode and `pc + 1` is inside the store. -/
def State.fetchAddrs (s : State) : List Nat :=
  if s.pc.toNat ≥ s.cfg.programSize then []
  else
    match s.cfg.opcodes.opcodeOf (s.progRead s.pc.toNat) with
    | some op => if op.isTwoWord ∧ s.pc.toNat + 1 < s.cfg.programSize then [s.pc.toNat, s.pc.toNat + 1] else [s.pc.toNat]
    | none => [s.pc.toNat]

/-- The reads that the step from `s` drives on `prog_addr`: none when no step can start (R80). -/
def State.issuedReads (s : State) : List Nat := if s.canStep then s.fetchAddrs else []

/-- The words the fetch reads. -/
def State.fetchWords (s : State) : List Word := s.fetchAddrs.map s.progRead

/-- `FetchDecode(pc)` (`spec/30_encoding.md` R66). It writes no state. -/
def State.fetchDecode (s : State) : Decoded := decodeWords s.cfg.opcodes s.fetchWords

/-- A step begins, or an idle machine waits: `out_valid` has pulsed for the step before it and is 0 again (log entry 7). -/
def State.begun (s : State) : State := { s with outPort := none }

/-- `steps <- steps + 1`, in every step (R83). -/
def State.counted (s : State) : State := { s with steps := s.steps + 1 }

/-- The end of a step: the count, then `pc <- pc + len` if the machine is still `Running` (R82, R84). -/
def State.finished (len : Nat) (s : State) : State :=
  if s.state = .running then s.counted.atPc (s.pc + BitVec.ofNat 32 len) else s.counted

/-- The state with `words` in the program store where the next fetch reads, and all that the next step needs to run them:
the store is long enough, the machine is `Running` and its budget is not used up (log entry 12). -/
def State.withWordsAtPc (words : List Word) (s : State) : State :=
  let loaded := { s with
    program := s.program.writeFrom s.pc.toNat words
    cfg := { s.cfg with programSize := max s.cfg.programSize (s.pc.toNat + words.length) } }
  if s.canStep then loaded else { loaded with state := .running, cause := .none, limitEnQ := false }

end Sys2Proof.Machine
end

