-- ==== Sys2Proof/Machine/Step.lean ====
section
/-! DEFINITION. One step of the machine (`spec/40_machine_control.md` R82). -/

namespace Sys2Proof.Machine

/-- `Step()` (R82), when `CanStep()` (R80). Otherwise the machine is idle: it holds every state element and emits nothing, so
the pulse of a `Print` that used up the budget is over (`spec/60_exceptions.md` R189; log entries 7, 9). -/
def step (s : State) : Host.Outcome State Fault Refusal :=
  if s.canStep then
    match exec s.fetchDecode.instr s.begun with
    | .next t => .next (t.finished s.fetchDecode.len)
    | .fault r => .fault r
    | .refused r => .refused r
  else .next s.begun

/-- `s` with the instruction `w`, numbered as `spec/opcode_table.json` numbers it, where the next step fetches. -/
def State.withFetchWord (s : State) (nbits w : Nat) : State := s.withWordsAtPc (tableWords nbits w)

end Sys2Proof.Machine
end

