-- ==== Sys2Proof/Machine/Assembler.lean ====
section
/-! DEFINITION. The assembler notation of `spec/30_encoding.md` R71 to R73, after its text has been split into lines and
words: it turns a program into the words of an image. -/

namespace Sys2Proof.Machine

/-- An operand: a number or a label (R71). -/
inductive AsmOperand where
  | number (n : Int)
  | label (name : String)
  deriving DecidableEq, Repr

/-- What a line holds beside its label (R71): a mnemonic, a mnemonic with an operand, or `.word`. -/
inductive AsmStatement where
  | plain (op : Opcode)
  | withOperand (op : Opcode) (arg : AsmOperand)
  | word (n : Int)
  deriving DecidableEq, Repr

/-- A line: `[label ':'] [instr]` (R71). -/
structure AsmLine where
  label : Option String
  statement : Option AsmStatement
  deriving DecidableEq, Repr

/-- A number "must fit in 32 bits: [-2^31, 2^32)" and is its two's-complement pattern (R71). -/
def asmNumber (n : Int) : Option Word := if -2 ^ 31 ≤ n ∧ n < 2 ^ 32 then some (BitVec.ofInt 32 n) else none

/-- How many words a line takes. -/
def AsmLine.size (l : AsmLine) : Nat :=
  match l.statement with
  | none => 0
  | some (.plain _) => 1
  | some (.withOperand _ _) => 2
  | some (.word _) => 1

/-- The address of each label, the program starting at address `a`. -/
def asmLabels (a : Nat) : List AsmLine → List (String × Nat)
  | [] => []
  | l :: ls =>
    match l.label with
    | some name => (name, a) :: asmLabels (a + l.size) ls
    | none => asmLabels (a + l.size) ls

/-- An operand of the opcode `op` at address `a`: a label only for `JE`, `JNE`, `Jump`, as `target - (a + 2)` (R71, R72). -/
def asmOperand (labels : List (String × Nat)) (op : Opcode) (a : Nat) : AsmOperand → Option Word
  | .number n => asmNumber n
  | .label name =>
    if op = .push then none
    else (labels.lookup name).map fun target => branchDisplacement (BitVec.ofNat 32 target) (BitVec.ofNat 32 a)

/-- The words of a line at address `a`; `none` if the operand does not suit the mnemonic. -/
def asmLine (m : OpcodeMap) (labels : List (String × Nat)) (a : Nat) (l : AsmLine) : Option (List Word) :=
  match l.statement with
  | none => some []
  | some (.plain op) => if op.isTwoWord then none else some [m.word op]
  | some (.withOperand op arg) =>
    if op.isTwoWord then (asmOperand labels op a arg).map fun imm => [m.word op, imm] else none
  | some (.word n) => (asmNumber n).map fun w => [w]

/-- The words of the lines, the first at address `a`. -/
def asmLines (m : OpcodeMap) (labels : List (String × Nat)) (a : Nat) : List AsmLine → Option (List Word)
  | [] => some []
  | l :: ls =>
    match asmLine m labels a l, asmLines m labels (a + l.size) ls with
    | some ws, some rest => some (ws ++ rest)
    | _, _ => none

/-- The image of a program. A label defined twice is refused (log entry 17). -/
def assemble (m : OpcodeMap) (ls : List AsmLine) : Option (List Word) :=
  if ((asmLabels 0 ls).map Prod.fst).Nodup then asmLines m (asmLabels 0 ls) 0 ls else none

/-- The line that writes a well-formed instruction, its immediate as a signed number. -/
def instrLine (i : Instr) : AsmLine :=
  match i.immediate with
  | [] => { label := none, statement := some (.plain i.opcode) }
  | imm :: _ => { label := none, statement := some (.withOperand i.opcode (.number imm.toInt)) }

end Sys2Proof.Machine
end

