-- ==== Sys2Proof/Machine/Ports.lean ====
section
/-! DEFINITION. The output ports (`spec/00_scope.md` R6) as views of the state between steps (`spec/10_state.md` R34), and
the observation of a run (`spec/40_machine_control.md` R87). -/

namespace Sys2Proof.Machine

/-- `st_state` (`spec/10_state.md` R23). -/
def State.stState (s : State) : BitVec 2 :=
  match s.state with
  | .running => 0b00
  | .halted => 0b01
  | .brk => 0b10

/-- `st_pc` (R34). -/
def State.stPc (s : State) : Word := s.pc

/-- `st_sp`: `sp` as a 32-bit two's-complement value (R22, R34; log entry 14). -/
def State.stSp (s : State) : Word := BitVec.ofInt 32 s.sp

/-- `st_steps` (R34). -/
def State.stSteps (s : State) : Count := s.steps

/-- The code of a cause (`spec/60_exceptions.md` R171). -/
def causeCode : Cause → BitVec 3
  | .none => 0
  | .breakInsn => 1
  | .undefinedOpcode => 2
  | .pcOutOfBounds => 3
  | .immOutOfBounds => 4
  | .stackOverflow => 5
  | .stackUnderflow => 6
  | .modByZero => 7

/-- `st_cause` (R34). -/
def State.stCause (s : State) : BitVec 3 := causeCode s.cause

/-- `st_done`: the second line of `spec/40_machine_control.md` R86. -/
def State.stDone (s : State) : Bool :=
  s.state != .running || (s.limitEnQ && decide (s.steps.toNat ≥ s.stepLimitQ.toNat))

/-- `st_ok` (`spec/40_machine_control.md` R88). -/
def State.stOk (s : State) : Bool :=
  s.stDone && (s.state == .halted || (s.state == .running && s.limitEnQ && s.steps == s.stepLimitQ))

/-- `out_valid` after the last step (log entry 7). -/
def State.outValid (s : State) : Bool := s.outPort.isSome

/-- `out_data`; while `out_valid` is 0 it shows `unspecified`, any value (log entry 13). -/
def State.outData (s : State) (unspecified : Word) : Word := s.outPort.getD unspecified

/-- `snap_data` for `snap_idx` (`spec/10_state.md` R33); for an index outside `0..sp` it shows `unspecified`, any value (log
entry 13). -/
def State.snapData (s : State) (snapIdx unspecified : Word) : Word :=
  if (snapIdx.toNat : Int) ≤ s.sp then s.stack.read snapIdx.toNat else unspecified

/-- "Stack contents top-to-bottom": `stack[sp], ..., stack[0]`, empty when `sp = -1` (R33). -/
def State.contents (s : State) : List Word := (List.range (s.sp + 1).toNat).reverse.map s.stack.read

/-- The final snapshot, with `cause` (`spec/40_machine_control.md` R87). -/
structure Snapshot where
  state : RunState
  pc : Word
  sp : Int
  steps : Count
  contents : List Word
  cause : Cause
  deriving DecidableEq, Repr

/-- The snapshot of a state. -/
def State.snapshot (s : State) : Snapshot :=
  { state := s.state, pc := s.pc, sp := s.sp, steps := s.steps, contents := s.contents, cause := s.cause }

/-- The observation: the output sequence and the snapshot (R87). -/
structure Observation where
  output : List Word
  snapshot : Snapshot
  deriving DecidableEq, Repr

/-- The observation that a state shows. -/
def State.observation (s : State) : Observation := { output := s.output, snapshot := s.snapshot }

end Sys2Proof.Machine
end

