-- ==== Sys2Proof/Safety.lean ====
section
/-! DEFINITION. The terms claims are stated in: the invariant of `spec/10_state.md` R35, the tables of R85 and R89, and when two
states differ only where nothing can see it. -/

namespace Sys2Proof

/-- The "pops" column of the stack-effect table (`spec/40_machine_control.md` R89). -/
def Instr.pops : Instr → Nat
  | .swap | .ovr | .add | .sub | .mul | .mod => 2
  | .print | .dup | .inc | .dec | .drop | .je _ | .jne _ => 1
  | .brk _ | .nop | .halt | .push _ | .rand | .jump _ => 0

/-- The "pushes" column of R89. -/
def Instr.pushes : Instr → Nat
  | .ovr => 3
  | .swap | .dup => 2
  | .push _ | .inc | .dec | .add | .sub | .mul | .mod | .rand => 1
  | .brk _ | .nop | .halt | .print | .drop | .je _ | .jne _ | .jump _ => 0

namespace Machine

/-! ### The invariant (R35) -/

/-- `-1 <= sp <= STACK_CAPACITY - 1`. -/
abbrev State.SpInRange (s : State) : Prop := -1 ≤ s.sp ∧ s.sp < s.cfg.stackCapacity

/-- Both memories are in the model's canonical form (log entry 1) and inside their spaces (`spec/20_memory.md` R40). -/
abbrev State.MemoriesInBounds (s : State) : Prop :=
  s.program.wf ∧ s.program.below s.cfg.programSize ∧ s.stack.wf ∧ s.stack.below s.cfg.stackCapacity

/-- `cause = NONE` if and only if `state != Break`. -/
abbrev State.CauseMatchesState (s : State) : Prop := s.cause = .none ↔ s.state ≠ .brk

/-- If `limit_en_q = 1` then `steps <= step_limit_q`. -/
abbrev State.WithinBudget (s : State) : Prop := s.limitEnQ = true → s.steps.toNat ≤ s.stepLimitQ.toNat

/-- An asserted `out_valid` shows the last event of the output sequence; a `Halted` or `Break` machine asserts none (the model's
port between steps, log entry 7). -/
abbrev State.OutPortMatchesOutput (s : State) : Prop :=
  s.outPort = none ∨ (s.state = .running ∧ s.outPort = s.output.getLast?)

/-- What holds between steps of a run (R35), for a machine whose parameters are legal (`spec/00_scope.md` R5). The memories' and
the port's conjuncts are the model's own (log entries 1, 7). -/
abbrev State.Inv (s : State) : Prop :=
  s.cfg.wf ∧ s.SpInRange ∧ s.MemoriesInBounds ∧ s.CauseMatchesState ∧ s.WithinBudget ∧ s.OutPortMatchesOutput

/-! ### The stack-effect table (R89) and the transition relation (R85) -/

/-- The stack depth (`spec/10_state.md` R22). -/
def State.depth (s : State) : Int := s.sp + 1

/-- A `Pop` of the instruction `i` finds the stack empty. -/
def State.Underflows (i : Instr) (s : State) : Prop := s.depth < i.pops

/-- Every `Pop` of `i` finds an entry, and a `Push` finds the stack full. -/
def State.Overflows (i : Instr) (s : State) : Prop :=
  i.pops ≤ s.depth ∧ (s.cfg.stackCapacity : Int) < s.depth - i.pops + i.pushes

/-- `i` is a `Mod` that finds two entries, the second 0. -/
def State.DividesByZero (i : Instr) (s : State) : Prop := i = .mod ∧ 2 ≤ s.depth ∧ s.entry (s.sp - 1) = 0

/-- The "succeeds when" column: `i` is no `Break`, and none of its micro-operations faults. -/
def State.Succeeds (i : Instr) (s : State) : Prop :=
  (∀ dcause, i ≠ .brk dcause) ∧ ¬ s.Underflows i ∧ ¬ s.Overflows i ∧ ¬ s.DividesByZero i

/-- The event that the step from `s` records in `cause`, row by row of R85 (causes of `spec/60_exceptions.md` R171). -/
def State.Raises (s : State) : Cause → Prop
  | .none => False
  | .breakInsn => s.pc.toNat < s.cfg.programSize ∧ s.progRead s.pc.toNat = 0
  | .undefinedOpcode =>
    s.pc.toNat < s.cfg.programSize ∧ ∀ op, s.cfg.opcodes.word op ≠ s.progRead s.pc.toNat
  | .pcOutOfBounds => s.cfg.programSize ≤ s.pc.toNat
  | .immOutOfBounds =>
    s.pc.toNat + 1 = s.cfg.programSize ∧
      ∃ op ∈ [Opcode.push, .je, .jne, .jump], s.cfg.opcodes.word op = s.progRead s.pc.toNat
  | .stackOverflow => s.Overflows s.fetchDecode.instr
  | .stackUnderflow => s.Underflows s.fetchDecode.instr
  | .modByZero => s.DividesByZero s.fetchDecode.instr

/-! ### Steps -/

/-- The program store holds `ws` from `pc` on, all of it inside the store. -/
def State.HoldsAtPc (s : State) (ws : List Word) : Prop :=
  ∀ k (h : k < ws.length), s.pc.toNat + k < s.cfg.programSize ∧ s.progRead (s.pc.toNat + k) = ws[k]

/-- The state a step that faults with `c` leaves, when nothing before the fault wrote anything: `cause` and `state` as
`raise Break(c)` writes them, `steps` counted, `pc` where it was (`spec/60_exceptions.md` R180). -/
def State.stoppedBy (c : Cause) (s : State) : State :=
  { s with state := .brk, cause := c, steps := s.steps + 1 }

/-- `s` and `t` agree but for stack entries above `sp` (`spec/20_memory.md` R54). -/
def State.SameBelowTop (s t : State) : Prop :=
  t = { s with stack := t.stack } ∧ ∀ j : Nat, (j : Int) ≤ s.sp → t.stack.read j = s.stack.read j

end Machine

end Sys2Proof
end

