-- ==== Sys2Proof/Certificates/Slice0/Obligations.lean ====
section
/-! DEFINITION. The statements for the provers. Each docstring names the rule of `spec/` it formalises. -/

open Sys2Proof Sys2Proof.Machine

/-! ### Encodings -/

/-- R60 to R66: whatever legal opcode map a machine has, decoding the encoding of a well-formed instruction, whatever words
follow it, gives that instruction with every bit of its immediate, and its length. -/
def Obligations.DecodeOfEncodeIsInstruction : Prop :=
  ∀ (m : OpcodeMap) (i : Instr) (rest : List Word), m.wf → i.wellFormed = true →
    decodeWords m (encode m i ++ rest) = ⟨i, (encode m i).length⟩

/-- R61, R62, R66: words that decode to a well-formed instruction begin with that instruction's encoding, and the length the
decoder answers is that encoding's. So no instruction has two encodings. -/
def Obligations.DecodedWordsAreTheEncoding : Prop :=
  ∀ (m : OpcodeMap) (ws : List Word) (i : Instr) (len : Nat), decodeWords m ws = ⟨i, len⟩ → i.wellFormed = true →
    ∃ tail, ws = encode m i ++ tail ∧ len = (encode m i).length

/-- R64: the 2-word opcodes are `Push`, `JE`, `JNE`, `Jump`; every other instruction, and every undefined word, is 1 word
long. -/
def Obligations.LengthIsTwoForImmediateOpcodes : Prop :=
  ∀ (m : OpcodeMap) (ws : List Word),
    (((decodeWords m ws).len = 2 ∧
        ∃ imm, (decodeWords m ws).instr = .push imm ∨ (decodeWords m ws).instr = .je imm ∨
          (decodeWords m ws).instr = .jne imm ∨ (decodeWords m ws).instr = .jump imm) ∨
      ((decodeWords m ws).len = 1 ∧
        ∀ imm, (decodeWords m ws).instr ≠ .push imm ∧ (decodeWords m ws).instr ≠ .je imm ∧
          (decodeWords m ws).instr ≠ .jne imm ∧ (decodeWords m ws).instr ≠ .jump imm)) ∧
    ∀ w rest, ws = w :: rest → (∀ op, m.word op ≠ w) → (decodeWords m ws).len = 1

/-- R63, R65: the words 0 to 18 of the table, each followed by the word of -2, decode to the instructions the table names,
and the table is a legal opcode map. -/
def Obligations.TableWordsDecode : Prop :=
  specOpcodeMap.wf ∧
    ([0, 1, 2, 3, 4, 5, 6, 7, 8, 9] : List Word).map (fun w => decodeWords specOpcodeMap [w, 0xFFFFFFFE]) =
      [⟨.brk .breakInsn, 1⟩, ⟨.nop, 1⟩, ⟨.halt, 1⟩, ⟨.push 0xFFFFFFFE, 2⟩, ⟨.print, 1⟩, ⟨.jne 0xFFFFFFFE, 2⟩, ⟨.swap, 1⟩,
        ⟨.dup, 1⟩, ⟨.je 0xFFFFFFFE, 2⟩, ⟨.inc, 1⟩] ∧
    ([10, 11, 12, 13, 14, 15, 16, 17, 18] : List Word).map (fun w => decodeWords specOpcodeMap [w, 0xFFFFFFFE]) =
      [⟨.add, 1⟩, ⟨.sub, 1⟩, ⟨.mul, 1⟩, ⟨.rand, 1⟩, ⟨.dec, 1⟩, ⟨.drop, 1⟩, ⟨.ovr, 1⟩, ⟨.mod, 1⟩, ⟨.jump 0xFFFFFFFE, 2⟩]

/-- R67: with the opcode values of R63, every word from 19 to 0xFFFFFFFF decodes as a 1-word `Break`, and executing it ends
the run in `Break` with `UNDEFINED_OPCODE`, nothing else of the machine changed but the step count and what the output port
shows. -/
def Obligations.UndefinedWordEndsRunInBreak : Prop :=
  ∀ (w : Word), 19 ≤ w.toNat →
    (∀ rest, decodeWords specOpcodeMap (w :: rest) = ⟨.brk .undefinedOpcode, 1⟩) ∧
    ∀ (s : State), s.cfg.opcodes = specOpcodeMap → s.canStep = true → s.HoldsAtPc [w] →
      ∃ t, step s = .next t ∧ t = { s.stoppedBy .undefinedOpcode with outPort := t.outPort }

/-- R72: a label operand of a branch at address `a` assembles to `target - (a + 2)`, and a branch with that immediate that is
taken lands on `target`, wherever both are. -/
def Obligations.LabelDisplacementLandsOnTarget : Prop :=
  (∀ (m : OpcodeMap) (labels : List (String × Nat)) (op : Opcode) (a target : Nat) (l : Option String) (name : String),
    op ∈ [Opcode.je, .jne, .jump] → labels.lookup name = some target →
      asmLine m labels a ⟨l, some (.withOperand op (.label name))⟩ =
        some [m.word op, BitVec.ofNat 32 target - (BitVec.ofNat 32 a + 2)]) ∧
  ∀ (s : State) (target imm : Word), s.canStep = true → imm = target - (s.pc + 2) →
    (s.fetchDecode = ⟨.jump imm, 2⟩ ∨
      (0 ≤ s.sp ∧ s.sp < s.cfg.stackCapacity ∧
        ((s.fetchDecode = ⟨.je imm, 2⟩ ∧ s.entry s.sp = 0) ∨ (s.fetchDecode = ⟨.jne imm, 2⟩ ∧ s.entry s.sp ≠ 0)))) →
    ∃ t, step s = .next t ∧ t.pc = target

/-- R71, R65: well-formed instructions written one a line, immediates as signed numbers, assemble to their encodings one
after another. -/
def Obligations.AssembledLinesAreTheEncodings : Prop :=
  ∀ (m : OpcodeMap) (is : List Instr), (∀ i ∈ is, i.wellFormed = true) →
    assemble m (is.map instrLine) = some (is.flatMap (encode m))

/-! ### Fetching and the step -/

/-- R82 (with R66, R83, R84): when the words at `pc` are a well-formed instruction's, a step is `exec` of it; then `steps` is
counted and, if the machine is still `Running`, `pc` advances by the instruction's length. Three clauses are the model's own:
`exec` starts with the port's pulse over (log entry 7, DESIGN CHOICE), the model's fault of log entry 8 (DEDUCED), met only
with `sp` outside its range, ends the step, and no step refuses. -/
def Obligations.StepRunsTheDecodedInstruction : Prop :=
  ∀ (s : State) (i : Instr), s.cfg.opcodes.wf → i.wellFormed = true → s.canStep = true →
    s.HoldsAtPc (encode s.cfg.opcodes i) →
      s.fetchDecode = ⟨i, (encode s.cfg.opcodes i).length⟩ ∧
      (∀ t, exec i { s with outPort := none } = .next t →
        step s = .next (if t.state = .running then
            { t with steps := t.steps + 1, pc := t.pc + BitVec.ofNat 32 (encode s.cfg.opcodes i).length }
          else { t with steps := t.steps + 1 })) ∧
      (∀ r, exec i { s with outPort := none } = .fault r → step s = .fault r) ∧
      ∀ r, step s ≠ .refused r

/-- R80: a step may start only when the machine is `Running` and the budget is not exhausted; when none can start, no
program-store read is issued and no state changes, what the output port shows apart. -/
def Obligations.NoStepWithoutBudgetOrRunning : Prop :=
  ∀ (s : State),
    (s.canStep = true ↔ s.state = .running ∧ (s.limitEnQ = false ∨ s.steps.toNat < s.stepLimitQ.toNat)) ∧
    (s.canStep = false → s.issuedReads = [] ∧ ∃ t, step s = .next t ∧ t = { s with outPort := t.outPort })

/-- R174: a step that starts with `pc >= PROGRAM_SIZE` issues no program-store read and ends the run with
`PC_OUT_OF_BOUNDS`; `pc` keeps the out-of-bounds value. -/
def Obligations.FetchPastEndEndsRun : Prop :=
  ∀ (s : State), s.canStep = true → s.cfg.programSize ≤ s.pc.toNat →
    s.issuedReads = [] ∧ ∃ t, step s = .next t ∧ t = { s.stoppedBy .pcOutOfBounds with outPort := t.outPort }

/-- R175 (with R68): a 2-word opcode in the last slot ends the run on that step with `IMM_OUT_OF_BOUNDS`; the slot past the
end is not read. -/
def Obligations.TruncatedInstructionEndsRun : Prop :=
  ∀ (s : State) (op : Opcode), s.cfg.opcodes.wf → s.canStep = true → s.pc.toNat + 1 = s.cfg.programSize →
    s.progRead s.pc.toNat = s.cfg.opcodes.word op → op ∈ [Opcode.push, .je, .jne, .jump] →
      s.issuedReads = [s.pc.toNat] ∧
        ∃ t, step s = .next t ∧ t = { s.stoppedBy .immOutOfBounds with outPort := t.outPort }

/-- R43: the reads of a step, in order: at `pc` only if `pc < PROGRAM_SIZE`, then at `pc + 1` only if the opcode word is a
2-word opcode and `pc + 1 < PROGRAM_SIZE`; no other read is ever issued, so none at or past `PROGRAM_SIZE`. -/
def Obligations.StepReadsOpcodeThenImmediate : Prop :=
  ∀ (s : State),
    (∀ a ∈ s.issuedReads, a < s.cfg.programSize) ∧
    (s.canStep = true → s.cfg.opcodes.wf → ∀ op, s.progRead s.pc.toNat = s.cfg.opcodes.word op →
      s.issuedReads =
        (if s.pc.toNat < s.cfg.programSize then [s.pc.toNat] else []) ++
        (if op ∈ [Opcode.push, .je, .jne, .jump] ∧ s.pc.toNat + 1 < s.cfg.programSize then [s.pc.toNat + 1] else [])) ∧
    (s.canStep = true → (∀ op, s.progRead s.pc.toNat ≠ s.cfg.opcodes.word op) →
      s.issuedReads = if s.pc.toNat < s.cfg.programSize then [s.pc.toNat] else [])

/-- R43, R66: a step depends on the program store only through the words it reads: with any other store that agrees on
those, it answers the same next state but for the store itself. -/
def Obligations.StepSeesOnlyTheWordsItReads : Prop :=
  ∀ (s t : State) (other : Memory), (∀ a ∈ s.issuedReads, other.read a = s.program.read a) → step s = .next t →
    step { s with program := other } = .next { t with program := other }

/-! ### The two memories -/

/-- R49: a `Push` that has room, followed at once by a `Pop`, gives back the pushed value and the `sp` there was; it
changes no entry but the one pushed to, and a `Pop` changes no entry. -/
def Obligations.PushThenPopGivesTheValueBack : Prop :=
  ∀ (s : State) (v : Word) (k : Word → State → Result), -1 ≤ s.sp → s.sp + 1 < s.cfg.stackCapacity →
    ∃ m, push v s (fun t => pop t k) = k v { s with stack := m } ∧ m.read (s.sp + 1).toNat = v ∧
      ∀ j : Nat, (j : Int) ≠ s.sp + 1 → m.read j = s.stack.read j

/-- The canonical form (the model's own, log entry 1): two memories in it that read alike everywhere are the same data. -/
def Obligations.EqualReadsMeanEqualMemories : Prop :=
  ∀ (m n : Memory), m.wf → n.wf → (∀ a, m.read a = n.read a) → m = n

/-- R202: loading an image no longer than the store puts its words in the slots from 0 on; the slots after it hold the
recommended fill 0 (log entry 2), and nothing else of the machine changes. -/
def Obligations.LoadedImageIsInTheStore : Prop :=
  ∀ (s : State) (image : List Word), image.length ≤ s.cfg.programSize →
    (∀ a, (s.load image).progRead a = (image[a]?).getD 0) ∧
    (s.load image).program.wf ∧ (s.load image).program.below s.cfg.programSize ∧
    s.load image = { s with program := (s.load image).program }

/-! ### Machine control -/

/-- R90: word 1 is `Nop`; it changes no state of its own; the step counts it and advances `pc` by 1, nothing else changed but
what the output port shows. -/
def Obligations.NopOnlyAdvances : Prop :=
  (∀ rest, decodeWords specOpcodeMap (1 :: rest) = ⟨.nop, 1⟩) ∧
  ∀ (s : State), exec .nop s = .next s ∧
    (s.canStep = true → s.fetchDecode = ⟨.nop, 1⟩ →
      ∃ t, step s = .next t ∧ t = { s with pc := s.pc + 1, steps := s.steps + 1, outPort := t.outPort })

/-- R91: word 2 is `Halt`; it sets `state` to `Halted` and nothing else; the step counts it, leaves `pc` at the `Halt`, and
the run has ended successfully. -/
def Obligations.HaltEndsRunInSuccess : Prop :=
  (∀ rest, decodeWords specOpcodeMap (2 :: rest) = ⟨.halt, 1⟩) ∧
  ∀ (s : State), exec .halt s = .next { s with state := .halted } ∧
    (s.canStep = true → s.fetchDecode = ⟨.halt, 1⟩ →
      ∃ t, step s = .next t ∧ t = { s with state := .halted, steps := s.steps + 1, outPort := t.outPort } ∧
        t.stDone = true ∧ t.stOk = true)

/-- R92 (with R170): word 0 is `Break` with `BREAK_INSN`; `Break` sets `state` to `Break` and `cause` to the `dcause` the
decoder gave, whichever it is, and touches nothing else; the step counts it, leaves `pc` where it was, and the run has
failed. For `PC_OUT_OF_BOUNDS` no word was read. -/
def Obligations.BreakRecordsItsCause : Prop :=
  (∀ rest, decodeWords specOpcodeMap (0 :: rest) = ⟨.brk .breakInsn, 1⟩) ∧
  ∀ (s : State) (dcause : DecodeCause),
    exec (.brk dcause) s = .next { s with cause := dcause.toCause, state := .brk } ∧
    (s.canStep = true → s.fetchDecode = ⟨.brk dcause, 1⟩ →
      ∃ t, step s = .next t ∧ t = { s.stoppedBy dcause.toCause with outPort := t.outPort } ∧
        t.stDone = true ∧ t.stOk = false) ∧
    (s.cfg.programSize ≤ s.pc.toNat → s.fetchDecode = ⟨.brk .pcOutOfBounds, 1⟩ ∧ s.issuedReads = [])

/-! ### Stack instructions -/

/-- R100: `Push imm` pushes the immediate's 32-bit pattern; on a full stack it raises `STACK_OVERFLOW`, the stack
unchanged; in the last slot it decodes as a `Break`. -/
def Obligations.PushPushesItsImmediate : Prop :=
  ∀ (s : State) (imm : Word), s.SpInRange →
    (∀ rest, decodeWords specOpcodeMap (3 :: imm :: rest) = ⟨.push imm, 2⟩) ∧
    decodeWords specOpcodeMap [3] = ⟨.brk .immOutOfBounds, 1⟩ ∧
    (s.sp ≤ s.cfg.stackCapacity - 2 →
      ∃ t, exec (.push imm) s = .next t ∧ t.sp = s.sp + 1 ∧ t.entry (s.sp + 1) = imm ∧
        (∀ j : Nat, (j : Int) ≠ s.sp + 1 → t.stack.read j = s.stack.read j) ∧
        t = { s with sp := t.sp, stack := t.stack }) ∧
    (s.sp = s.cfg.stackCapacity - 1 →
      exec (.push imm) s = .next { s with state := .brk, cause := .stackOverflow })

/-- R101: `Swap` exchanges the top two entries; with one entry the entry is lost and the second `Pop` raises
`STACK_UNDERFLOW`, with none the first does; a full stack is no fault. -/
def Obligations.SwapExchangesTopTwo : Prop :=
  ∀ (s : State), s.SpInRange →
    (∀ rest, decodeWords specOpcodeMap (6 :: rest) = ⟨.swap, 1⟩) ∧
    (1 ≤ s.sp →
      ∃ t, exec .swap s = .next t ∧ t.entry s.sp = s.entry (s.sp - 1) ∧ t.entry (s.sp - 1) = s.entry s.sp ∧
        (∀ j : Nat, (j : Int) ≠ s.sp → (j : Int) ≠ s.sp - 1 → t.stack.read j = s.stack.read j) ∧
        t = { s with stack := t.stack }) ∧
    (s.sp = 0 → exec .swap s = .next { s with sp := -1, state := .brk, cause := .stackUnderflow }) ∧
    (s.sp = -1 → exec .swap s = .next { s with state := .brk, cause := .stackUnderflow })

/-- R102: `Dup` duplicates the top entry; on a full stack it raises `STACK_OVERFLOW` with `sp` and every entry as before, on
an empty one `STACK_UNDERFLOW`. -/
def Obligations.DupDuplicatesTheTop : Prop :=
  ∀ (s : State), s.SpInRange →
    (∀ rest, decodeWords specOpcodeMap (7 :: rest) = ⟨.dup, 1⟩) ∧
    (0 ≤ s.sp → s.sp ≤ s.cfg.stackCapacity - 2 →
      ∃ t, exec .dup s = .next t ∧ t.sp = s.sp + 1 ∧ t.entry (s.sp + 1) = s.entry s.sp ∧
        (∀ j : Nat, (j : Int) ≠ s.sp + 1 → t.stack.read j = s.stack.read j) ∧
        t = { s with sp := t.sp, stack := t.stack }) ∧
    (0 ≤ s.sp → s.sp = s.cfg.stackCapacity - 1 →
      ∃ t, exec .dup s = .next t ∧ t.state = .brk ∧ t.cause = .stackOverflow ∧
        (∀ j : Nat, t.stack.read j = s.stack.read j) ∧
        t = { s with state := t.state, cause := t.cause, stack := t.stack }) ∧
    (s.sp = -1 → exec .dup s = .next { s with state := .brk, cause := .stackUnderflow })

/-- R103: `Over` copies the second entry to the top; on a full stack of two or more entries it raises `STACK_OVERFLOW` with
`sp` and every entry as before; with fewer than two entries it raises `STACK_UNDERFLOW` and leaves the stack empty. -/
def Obligations.OverCopiesTheSecond : Prop :=
  ∀ (s : State), s.SpInRange →
    (∀ rest, decodeWords specOpcodeMap (16 :: rest) = ⟨.ovr, 1⟩) ∧
    (1 ≤ s.sp → s.sp ≤ s.cfg.stackCapacity - 2 →
      ∃ t, exec .ovr s = .next t ∧ t.sp = s.sp + 1 ∧ t.entry (s.sp + 1) = s.entry (s.sp - 1) ∧
        (∀ j : Nat, (j : Int) ≠ s.sp + 1 → t.stack.read j = s.stack.read j) ∧
        t = { s with sp := t.sp, stack := t.stack }) ∧
    (1 ≤ s.sp → s.sp = s.cfg.stackCapacity - 1 →
      ∃ t, exec .ovr s = .next t ∧ t.state = .brk ∧ t.cause = .stackOverflow ∧
        (∀ j : Nat, t.stack.read j = s.stack.read j) ∧
        t = { s with state := t.state, cause := t.cause, stack := t.stack }) ∧
    (s.sp = 0 → exec .ovr s = .next { s with sp := -1, state := .brk, cause := .stackUnderflow }) ∧
    (s.sp = -1 → exec .ovr s = .next { s with state := .brk, cause := .stackUnderflow })

/-- R104: `Drop` discards the top entry, no array entry changed; on an empty stack it raises `STACK_UNDERFLOW`, `sp` still
-1. -/
def Obligations.DropDiscardsTheTop : Prop :=
  ∀ (s : State), s.SpInRange →
    (∀ rest, decodeWords specOpcodeMap (15 :: rest) = ⟨.drop, 1⟩) ∧
    (0 ≤ s.sp → exec .drop s = .next { s with sp := s.sp - 1 }) ∧
    (s.sp = -1 → exec .drop s = .next { s with state := .brk, cause := .stackUnderflow })

/-! ### Output and random source -/

/-- R120 (with R185): `Print` pops the top entry and makes one output event with its 32-bit pattern; on an empty stack it
raises `STACK_UNDERFLOW` and emits nothing. -/
def Obligations.PrintEmitsTheTop : Prop :=
  ∀ (s : State), s.SpInRange →
    (∀ rest, decodeWords specOpcodeMap (4 :: rest) = ⟨.print, 1⟩) ∧
    (0 ≤ s.sp → exec .print s = .next
      { s with sp := s.sp - 1, outPort := some (s.entry s.sp), output := s.output ++ [s.entry s.sp] }) ∧
    (s.sp = -1 → exec .print s = .next { s with state := .brk, cause := .stackUnderflow })

/-- R121 (with R186): `Rand` pushes the value the random source draws, and the effect is the same for every value it could
draw; on a full stack it raises `STACK_OVERFLOW`, the stack unchanged. A draw is counted either way (the model's own count,
log entry 6). -/
def Obligations.RandPushesTheDraw : Prop :=
  ∀ (s : State), s.SpInRange →
    (∀ rest, decodeWords specOpcodeMap (13 :: rest) = ⟨.rand, 1⟩) ∧
    exec .rand s = push (Config.randDraw s.draws) { s with draws := s.draws + 1 } done ∧
    (s.sp ≤ s.cfg.stackCapacity - 2 →
      (∃ t, exec .rand s = .next t ∧ t.sp = s.sp + 1 ∧ t.entry (s.sp + 1) = Config.randDraw s.draws ∧
        (∀ j : Nat, (j : Int) ≠ s.sp + 1 → t.stack.read j = s.stack.read j) ∧
        t = { s with sp := t.sp, stack := t.stack, draws := s.draws + 1 }) ∧
      ∀ r : Word, ∃ t, push r { s with draws := s.draws + 1 } done = .next t ∧ t.sp = s.sp + 1 ∧
        t.entry (s.sp + 1) = r ∧ (∀ j : Nat, (j : Int) ≠ s.sp + 1 → t.stack.read j = s.stack.read j) ∧
        t = { s with sp := t.sp, stack := t.stack, draws := s.draws + 1 }) ∧
    (s.sp = s.cfg.stackCapacity - 1 →
      exec .rand s = .next { s with draws := s.draws + 1, state := .brk, cause := .stackOverflow })

/-! ### Arithmetic -/

/-- R131 (with R130): `Inc` replaces the top entry `a` by `(u(a) + 1) mod 2^32`; on an empty stack it raises
`STACK_UNDERFLOW`. -/
def Obligations.IncAddsOneToTheTop : Prop :=
  ∀ (s : State), s.SpInRange →
    (∀ rest, decodeWords specOpcodeMap (9 :: rest) = ⟨.inc, 1⟩) ∧
    (0 ≤ s.sp →
      ∃ t, exec .inc s = .next t ∧ (t.entry s.sp).toNat = ((s.entry s.sp).toNat + 1) % 2 ^ 32 ∧
        (∀ j : Nat, (j : Int) ≠ s.sp → t.stack.read j = s.stack.read j) ∧ t = { s with stack := t.stack }) ∧
    (s.sp = -1 → exec .inc s = .next { s with state := .brk, cause := .stackUnderflow })

/-- R132 (with R130): `Dec` replaces the top entry `a` by `(u(a) - 1) mod 2^32`, 0 giving 0xFFFFFFFF; on an empty stack it
raises `STACK_UNDERFLOW`. -/
def Obligations.DecSubtractsOneFromTheTop : Prop :=
  ∀ (s : State), s.SpInRange →
    (∀ rest, decodeWords specOpcodeMap (14 :: rest) = ⟨.dec, 1⟩) ∧
    (0 ≤ s.sp →
      ∃ t, exec .dec s = .next t ∧ ((t.entry s.sp).toNat : Int) = ((s.entry s.sp).toNat - 1 : Int) % 2 ^ 32 ∧
        (∀ j : Nat, (j : Int) ≠ s.sp → t.stack.read j = s.stack.read j) ∧ t = { s with stack := t.stack }) ∧
    (s.sp = -1 → exec .dec s = .next { s with state := .brk, cause := .stackUnderflow })

/-- R133 (with R130): `Add` replaces the top two entries `a` (top) and `b` by `(u(a) + u(b)) mod 2^32`; with one entry the
entry is lost and it raises `STACK_UNDERFLOW`, with none too. -/
def Obligations.AddReplacesTopTwoWithSum : Prop :=
  ∀ (s : State), s.SpInRange →
    (∀ rest, decodeWords specOpcodeMap (10 :: rest) = ⟨.add, 1⟩) ∧
    (1 ≤ s.sp →
      ∃ t, exec .add s = .next t ∧ t.sp = s.sp - 1 ∧
        (t.entry (s.sp - 1)).toNat = ((s.entry s.sp).toNat + (s.entry (s.sp - 1)).toNat) % 2 ^ 32 ∧
        (∀ j : Nat, (j : Int) ≠ s.sp - 1 → t.stack.read j = s.stack.read j) ∧
        t = { s with sp := t.sp, stack := t.stack }) ∧
    (s.sp = 0 → exec .add s = .next { s with sp := -1, state := .brk, cause := .stackUnderflow }) ∧
    (s.sp = -1 → exec .add s = .next { s with state := .brk, cause := .stackUnderflow })

/-- R134 (with R130): `Sub` replaces the top two entries `a` (top) and `b` by `(u(a) - u(b)) mod 2^32`; faults as `Add`. -/
def Obligations.SubReplacesTopTwoWithTopMinusSecond : Prop :=
  ∀ (s : State), s.SpInRange →
    (∀ rest, decodeWords specOpcodeMap (11 :: rest) = ⟨.sub, 1⟩) ∧
    (1 ≤ s.sp →
      ∃ t, exec .sub s = .next t ∧ t.sp = s.sp - 1 ∧
        ((t.entry (s.sp - 1)).toNat : Int) = ((s.entry s.sp).toNat - (s.entry (s.sp - 1)).toNat : Int) % 2 ^ 32 ∧
        (∀ j : Nat, (j : Int) ≠ s.sp - 1 → t.stack.read j = s.stack.read j) ∧
        t = { s with sp := t.sp, stack := t.stack }) ∧
    (s.sp = 0 → exec .sub s = .next { s with sp := -1, state := .brk, cause := .stackUnderflow }) ∧
    (s.sp = -1 → exec .sub s = .next { s with state := .brk, cause := .stackUnderflow })

/-- R135 (with R130): `Mul` replaces the top two entries `a` (top) and `b` by `(u(a) * u(b)) mod 2^32`, the low 32 bits of
the product; faults as `Add`. -/
def Obligations.MulReplacesTopTwoWithLowProduct : Prop :=
  ∀ (s : State), s.SpInRange →
    (∀ rest, decodeWords specOpcodeMap (12 :: rest) = ⟨.mul, 1⟩) ∧
    (1 ≤ s.sp →
      ∃ t, exec .mul s = .next t ∧ t.sp = s.sp - 1 ∧
        (t.entry (s.sp - 1)).toNat = ((s.entry s.sp).toNat * (s.entry (s.sp - 1)).toNat) % 2 ^ 32 ∧
        (∀ j : Nat, (j : Int) ≠ s.sp - 1 → t.stack.read j = s.stack.read j) ∧
        t = { s with sp := t.sp, stack := t.stack }) ∧
    (s.sp = 0 → exec .mul s = .next { s with sp := -1, state := .brk, cause := .stackUnderflow }) ∧
    (s.sp = -1 → exec .mul s = .next { s with state := .brk, cause := .stackUnderflow })

/-- R136 (with R130, R178): `Mod` replaces the top two entries `a` (top) and `b`, `b` not 0, by the unsigned remainder
`u(a) mod u(b)`; a second entry of 0 raises `MOD_BY_ZERO` after both pops; with fewer than two entries it raises
`STACK_UNDERFLOW`, checked first. -/
def Obligations.ModReplacesTopTwoWithRemainder : Prop :=
  ∀ (s : State), s.SpInRange →
    (∀ rest, decodeWords specOpcodeMap (17 :: rest) = ⟨.mod, 1⟩) ∧
    (1 ≤ s.sp → s.entry (s.sp - 1) ≠ 0 →
      ∃ t, exec .mod s = .next t ∧ t.sp = s.sp - 1 ∧
        (t.entry (s.sp - 1)).toNat = (s.entry s.sp).toNat % (s.entry (s.sp - 1)).toNat ∧
        (∀ j : Nat, (j : Int) ≠ s.sp - 1 → t.stack.read j = s.stack.read j) ∧
        t = { s with sp := t.sp, stack := t.stack }) ∧
    (1 ≤ s.sp → s.entry (s.sp - 1) = 0 →
      exec .mod s = .next { s with sp := s.sp - 2, state := .brk, cause := .modByZero }) ∧
    (s.sp = 0 → exec .mod s = .next { s with sp := -1, state := .brk, cause := .stackUnderflow }) ∧
    (s.sp = -1 → exec .mod s = .next { s with state := .brk, cause := .stackUnderflow })

/-! ### Branches -/

/-- R151: `JE imm` pops a value, consumed either way, and adds the immediate to `pc` if it is zero; on an empty stack it
raises `STACK_UNDERFLOW` and `pc` stays; in the last slot it decodes as a `Break`. -/
def Obligations.JeBranchesOnZero : Prop :=
  ∀ (s : State) (imm : Word), s.SpInRange →
    (∀ rest, decodeWords specOpcodeMap (8 :: imm :: rest) = ⟨.je imm, 2⟩) ∧
    decodeWords specOpcodeMap [8] = ⟨.brk .immOutOfBounds, 1⟩ ∧
    (0 ≤ s.sp → s.entry s.sp = 0 → exec (.je imm) s = .next { s with sp := s.sp - 1, pc := s.pc + imm }) ∧
    (0 ≤ s.sp → s.entry s.sp ≠ 0 → exec (.je imm) s = .next { s with sp := s.sp - 1 }) ∧
    (s.sp = -1 → exec (.je imm) s = .next { s with state := .brk, cause := .stackUnderflow })

/-- R152: `JNE imm` pops a value and adds the immediate to `pc` if it is non-zero; faults as `JE`. -/
def Obligations.JneBranchesOnNonZero : Prop :=
  ∀ (s : State) (imm : Word), s.SpInRange →
    (∀ rest, decodeWords specOpcodeMap (5 :: imm :: rest) = ⟨.jne imm, 2⟩) ∧
    decodeWords specOpcodeMap [5] = ⟨.brk .immOutOfBounds, 1⟩ ∧
    (0 ≤ s.sp → s.entry s.sp ≠ 0 → exec (.jne imm) s = .next { s with sp := s.sp - 1, pc := s.pc + imm }) ∧
    (0 ≤ s.sp → s.entry s.sp = 0 → exec (.jne imm) s = .next { s with sp := s.sp - 1 }) ∧
    (s.sp = -1 → exec (.jne imm) s = .next { s with state := .brk, cause := .stackUnderflow })

/-- R153: `Jump imm` adds the immediate to `pc` and touches no stack state, whatever the stack; the step then adds 2; in the
last slot it decodes as a `Break`. -/
def Obligations.JumpBranchesAlways : Prop :=
  ∀ (s : State) (imm : Word),
    (∀ rest, decodeWords specOpcodeMap (18 :: imm :: rest) = ⟨.jump imm, 2⟩) ∧
    decodeWords specOpcodeMap [18] = ⟨.brk .immOutOfBounds, 1⟩ ∧
    exec (.jump imm) s = .next { s with pc := s.pc + imm } ∧
    (s.canStep = true → s.fetchDecode = ⟨.jump imm, 2⟩ →
      ∃ t, step s = .next t ∧ t = { s with pc := s.pc + imm + 2, steps := s.steps + 1, outPort := t.outPort })

/-- R150: the displacement is added to the pre-advance `pc` and the advance by the length 2 still runs: a taken branch goes to
`pc + 2 + s(imm)` modulo 2^32, one not taken to `pc + 2` modulo 2^32. -/
def Obligations.BranchTargetIsPcPlusTwoPlusDisplacement : Prop :=
  ∀ (s : State) (imm : Word), s.canStep = true →
    (s.fetchDecode = ⟨.jump imm, 2⟩ →
      ∃ t, step s = .next t ∧ (t.pc.toNat : Int) = (s.pc.toNat + 2 + imm.toInt) % 2 ^ 32) ∧
    (0 ≤ s.sp → s.sp < s.cfg.stackCapacity → s.fetchDecode = ⟨.je imm, 2⟩ →
      ∃ t, step s = .next t ∧
        (s.entry s.sp = 0 → (t.pc.toNat : Int) = (s.pc.toNat + 2 + imm.toInt) % 2 ^ 32) ∧
        (s.entry s.sp ≠ 0 → (t.pc.toNat : Int) = (s.pc.toNat + 2) % 2 ^ 32)) ∧
    (0 ≤ s.sp → s.sp < s.cfg.stackCapacity → s.fetchDecode = ⟨.jne imm, 2⟩ →
      ∃ t, step s = .next t ∧
        (s.entry s.sp ≠ 0 → (t.pc.toNat : Int) = (s.pc.toNat + 2 + imm.toInt) % 2 ^ 32) ∧
        (s.entry s.sp = 0 → (t.pc.toNat : Int) = (s.pc.toNat + 2) % 2 ^ 32))

/-- R154: a taken branch is not checked: it completes, and only the next step's fetch faults if its target is outside the
store, with `pc` at that target. A target that wrapped below 0 is always outside. -/
def Obligations.BadBranchTargetFaultsAtNextFetch : Prop :=
  ∀ (s : State) (imm : Word), s.Inv → s.canStep = true → s.fetchDecode.len = 2 →
    (s.fetchDecode.instr = .jump imm ∨ (s.fetchDecode.instr = .je imm ∧ 0 ≤ s.sp ∧ s.entry s.sp = 0) ∨
      (s.fetchDecode.instr = .jne imm ∧ 0 ≤ s.sp ∧ s.entry s.sp ≠ 0)) →
    ∃ t, step s = .next t ∧ t.state = .running ∧ t.pc = s.pc + 2 + imm ∧
      ((s.pc.toNat : Int) + 2 + imm.toInt < 0 → s.cfg.programSize ≤ t.pc.toNat) ∧
      (s.cfg.programSize ≤ t.pc.toNat → t.canStep = true →
        ∃ u, step t = .next u ∧ u = { t.stoppedBy .pcOutOfBounds with outPort := u.outPort })

/-! ### Rules of the whole machine -/

/-- R89: the stack-effect table, for every instruction and every `sp` in range. If the instruction succeeds, `sp` moves by
its pushes less its pops and no fault is recorded; on an underflow the stack ends empty; on an overflow `sp` and every entry
are as they were; on a division by zero `sp` is two lower; a `Break` leaves `sp`. -/
def Obligations.StackEffectTable : Prop :=
  ∀ (s : State) (i : Instr), s.SpInRange →
    ∃ t, exec i s = .next t ∧
      (s.Succeeds i → t.sp = s.sp - i.pops + i.pushes ∧ t.cause = s.cause ∧
        t.state = if i = .halt then .halted else s.state) ∧
      (s.Underflows i → t.sp = -1 ∧ t.state = .brk ∧ t.cause = .stackUnderflow) ∧
      (s.Overflows i → t.sp = s.sp ∧ t.state = .brk ∧ t.cause = .stackOverflow ∧
        ∀ j : Nat, t.stack.read j = s.stack.read j) ∧
      (s.DividesByZero i → t.sp = s.sp - 2 ∧ t.state = .brk ∧ t.cause = .modByZero) ∧
      (∀ dcause, i = .brk dcause → t.sp = s.sp ∧ t.state = .brk ∧ t.cause = dcause.toCause)

/-- R85: the complete transition relation of a step, row by row: each cause is recorded exactly when its event happens, the
machine is then in `Break` and otherwise not, and it halts exactly at a `Halt`. -/
def Obligations.TransitionRelation : Prop :=
  ∀ (s : State), s.Inv → s.canStep = true →
    ∃ t, step s = .next t ∧
      (∀ c, c ≠ .none → (t.cause = c ↔ s.Raises c)) ∧
      (t.state = .brk ↔ ∃ c, s.Raises c) ∧
      (t.state = .halted ↔ s.fetchDecode.instr = .halt) ∧
      (t.state = .running ↔ s.fetchDecode.instr ≠ .halt ∧ ∀ c, ¬ s.Raises c)

/-- R24 (with R201): no step leaves a terminal state: it changes nothing, what the output port shows apart. Only a `Halt` makes a `Running` machine
`Halted`, and every machine in `Break` that was not before has a cause other than NONE. -/
def Obligations.TerminalStatesAreFinal : Prop :=
  ∀ (s t : State), step s = .next t →
    (s.state ≠ .running → t = { s with outPort := t.outPort }) ∧
    (s.state = .running → t.state = .halted → s.fetchDecode.instr = .halt) ∧
    (s.state = .running → t.state = .brk → t.cause ≠ .none)

/-- R83: `steps` is incremented exactly once in every step, faulting or not. -/
def Obligations.EveryStepIsCountedOnce : Prop :=
  ∀ (s t : State), s.canStep = true → step s = .next t → t.steps = s.steps + 1

/-- R84 (with R150): after a step that ends in `Halted` or `Break`, `pc` still holds the address of the instruction; after any
other, it has advanced by the decoded length, plus the displacement of a branch. -/
def Obligations.PcAdvancesOnlyWhileRunning : Prop :=
  ∀ (s t : State), s.canStep = true → step s = .next t →
    (t.state ≠ .running → t.pc = s.pc) ∧
    (t.state = .running →
      t.pc = s.pc + BitVec.ofNat 32 s.fetchDecode.len ∨
      ∃ imm, (s.fetchDecode.instr = .je imm ∨ s.fetchDecode.instr = .jne imm ∨ s.fetchDecode.instr = .jump imm) ∧
        t.pc = s.pc + imm + BitVec.ofNat 32 s.fetchDecode.len)

/-- R27, R29, R53: no step writes the program store, the step-limit latch or the parameters. -/
def Obligations.StoreAndLatchNeverChange : Prop :=
  ∀ (s t : State), step s = .next t →
    t.program = s.program ∧ t.limitEnQ = s.limitEnQ ∧ t.stepLimitQ = s.stepLimitQ ∧ t.cfg = s.cfg

/-- R6, R120, R185, R189: a step that completes a `Print` makes exactly one event, the popped top, in the output sequence and
as one pulse of the port; any other step, and every step of an idle machine, leaves the sequence as it was and shows no event.
That the pulse shows in the state the `Print` step leaves is the model's choice (log entry 7, DESIGN CHOICE). -/
def Obligations.OnlyPrintEmits : Prop :=
  ∀ (s t : State), step s = .next t →
    (s.canStep = true ∧ s.fetchDecode.instr = .print ∧ 0 ≤ s.sp ∧ t.outPort = some (s.entry s.sp) ∧
        t.output = s.output ++ [s.entry s.sp]) ∨
      ((s.canStep = true → s.fetchDecode.instr = .print → s.sp < 0) ∧ t.outPort = none ∧ t.output = s.output)

/-- R182, R186: only `Rand` consults the random source: any other step is the same whatever the source would draw. -/
def Obligations.OnlyRandSeesTheRandomSource : Prop :=
  ∀ (s t : State) (n : Nat), (s.canStep = true → s.fetchDecode.instr ≠ .rand) → step s = .next t →
    t.draws = s.draws ∧ step { s with draws := n } = .next { t with draws := n }

/-! ### Invariants and runs -/

/-- R35 at reset: the state after reset meets the invariant (with the choices of log entries 2, 3, 5, 12, 16), and so does
every reset of a machine that meets it, whatever the limit inputs; a reset begins a new, empty output sequence (log entry
7). -/
def Obligations.ResetMeetsInvariant : Prop :=
  State.reset.Inv ∧ ∀ (s : State) (limitEn : Bool) (stepLimit : Count), s.Inv →
    (s.rst limitEn stepLimit).Inv ∧ (s.rst limitEn stepLimit).output = []

/-- R35: every step keeps the invariant: `sp` in range, `cause = NONE` exactly outside `Break`, `steps` within the budget. Three
conjuncts of the invariant are not R35's: the parameters are legal (R5), both memories are in the model's canonical form inside
their spaces (log entry 1, DEDUCED), and the port agrees with the output sequence (log entry 7, DESIGN CHOICE). -/
def Obligations.StepKeepsInvariant : Prop :=
  ∀ (s t : State), s.Inv → step s = .next t → t.Inv

/-- R69, R170, R180: from a state that meets the invariant the machine always has a next state: every fault of the spec is
one, and the model's own fault and refusal never happen. -/
def Obligations.InvariantMachineAlwaysSteps : Prop :=
  ∀ (s : State), s.Inv → ∃ t, step s = .next t

/-- R184, R86: with a step limit in force every run ends: after as many steps as the budget has left, `st_done` is 1 and the
step count has not passed the limit. -/
def Obligations.StepLimitEndsEveryRun : Prop :=
  ∀ (s : State), s.Inv → s.limitEnQ = true →
    ∃ t : State, Host.Core.run Sys2Proof.core (s.stepLimitQ.toNat - s.steps.toNat) s = .next t ∧
      t.stDone = true ∧ t.steps.toNat ≤ s.stepLimitQ.toNat

/-- R188, R184: the budget stops a run after exactly `step_limit` steps with all state intact: with the limit `n`, the state
reached in `n` steps after a reset is the one an unlimited run reaches in `n` steps, but for the latch itself, and every
further step leaves it, the end of a last `Print`'s pulse apart (log entry 7). -/
def Obligations.BudgetCutsTheUnlimitedRun : Prop :=
  ∀ (s : State) (n : Nat) (other : Count), s.Inv → n < 2 ^ 64 →
    ∃ t : State, Host.Core.run Sys2Proof.core n (s.rst true (BitVec.ofNat 64 n)) = .next t ∧
      Host.Core.run Sys2Proof.core n (s.rst false other) = .next { t with limitEnQ := false, stepLimitQ := other } ∧
      t.stDone = true ∧ step t = .next { t with outPort := none }

/-- R54, R36: stack entries above `sp` are not observable: two machines that differ only there make steps that differ only
there, and show the same observation. So the entries at reset (log entry 16) decide nothing. -/
def Obligations.EntriesAboveTopAreUnobservable : Prop :=
  ∀ (s s' : State), s.Inv → s'.Inv → s.SameBelowTop s' →
    s.observation = s'.observation ∧
    ∃ t t', step s = .next t ∧ step s' = .next t' ∧ t.SameBelowTop t' ∧ t.observation = t'.observation

/-! ### Reset and ports -/

/-- R36: what reset leaves, element by element, the limit latch loaded from the inputs; the program store and the parameters
stay. R36 leaves the stack array unspecified; that it stays as it was is the model's choice (log entry 16, DESIGN CHOICE, with
R200's "not cleared"). -/
def Obligations.ResetValues : Prop :=
  ∀ (s : State) (limitEn : Bool) (stepLimit : Count), ∃ t, t = s.rst limitEn stepLimit ∧
    t.state = .running ∧ t.sp = -1 ∧ t.steps = 0 ∧ t.pc = 0 ∧ t.cause = .none ∧
    t.limitEnQ = limitEn ∧ t.stepLimitQ = stepLimit ∧ t.outValid = false ∧
    t.stack = s.stack ∧ t.program = s.program ∧ t.cfg = s.cfg

/-- R209: after a reset with `limit_en = 1` and `step_limit = 0`, `st_done` and `st_ok` are 1 at once, no program-store read
is issued, and a step changes nothing. -/
def Obligations.LimitZeroRunsNothing : Prop :=
  ∀ (s : State),
    (s.rst true 0).stDone = true ∧ (s.rst true 0).stOk = true ∧ (s.rst true 0).issuedReads = [] ∧
      step (s.rst true 0) = .next (s.rst true 0)

/-- R86: `st_done` is 1 exactly when no step can start: outside `Running`, or with a limit in force that `steps` has reached.
A `Jump -2` with no limit leaves everything as it was but the count and what the port shows, and `st_done` at 0. -/
def Obligations.DoneMeansNoStepCanStart : Prop :=
  ∀ (s : State), s.stDone = !s.canStep ∧
    (s.stDone = true ↔ s.state ≠ .running ∨ (s.limitEnQ = true ∧ s.stepLimitQ.toNat ≤ s.steps.toNat)) ∧
    (s.state = .running → s.limitEnQ = false → s.fetchDecode = ⟨.jump (BitVec.ofInt 32 (-2)), 2⟩ →
      ∃ t, step s = .next t ∧ t = { s with steps := s.steps + 1, outPort := t.outPort } ∧ t.stDone = false)

/-- R88: success is `Halted`, or `Running` with `steps` at the limit; a run that has ended otherwise is in `Break`. -/
def Obligations.EndedRunFailsExactlyInBreak : Prop :=
  ∀ (s : State), s.Inv →
    (s.stOk = true ↔ s.state = .halted ∨ (s.state = .running ∧ s.limitEnQ = true ∧ s.steps = s.stepLimitQ)) ∧
    (s.stDone = true → (s.stOk = false ↔ s.state = .brk))

/-- R23 (with R34, R171): the status ports show the state, with the codes of R23 for `state` and of R171 for `cause`, and `sp` as a
32-bit two's-complement value. -/
def Obligations.StatusPortsShowTheState : Prop :=
  ∀ (s : State),
    (s.stState = 0b00 ↔ s.state = .running) ∧ (s.stState = 0b01 ↔ s.state = .halted) ∧
    (s.stState = 0b10 ↔ s.state = .brk) ∧ s.stState ≠ 0b11 ∧ s.stPc = s.pc ∧ s.stSteps = s.steps ∧
    (s.stCause = 0 ↔ s.cause = .none) ∧ (s.stCause = 1 ↔ s.cause = .breakInsn) ∧
    (s.stCause = 2 ↔ s.cause = .undefinedOpcode) ∧ (s.stCause = 3 ↔ s.cause = .pcOutOfBounds) ∧
    (s.stCause = 4 ↔ s.cause = .immOutOfBounds) ∧ (s.stCause = 5 ↔ s.cause = .stackOverflow) ∧
    (s.stCause = 6 ↔ s.cause = .stackUnderflow) ∧ (s.stCause = 7 ↔ s.cause = .modByZero) ∧
    (-1 ≤ s.sp → s.sp < 2 ^ 31 → s.stSp.toInt = s.sp)

/-- R33: the snapshot port shows `stack[u(snap_idx)]` for an index within `0..sp`. For any other index R33 calls its value
unspecified; that the port function then answers its argument, any value, is the model's choice (log entry 13, DEDUCED). The
contents top to bottom are `stack[sp], ..., stack[0]`, empty when `sp = -1`. -/
def Obligations.SnapshotShowsTheStack : Prop :=
  ∀ (s : State) (idx unspecified : Word), -1 ≤ s.sp →
    ((idx.toNat : Int) ≤ s.sp → s.snapData idx unspecified = s.entry idx.toNat) ∧
    (s.sp < idx.toNat → s.snapData idx unspecified = unspecified) ∧
    (s.contents.length : Int) = s.sp + 1 ∧
    ∀ (k : Nat) (h : k < s.contents.length), s.contents[k] = s.entry (s.sp - k)

/-- R189 (with R80, R6): a machine whose run has ended is idle. It issues no read, and however many steps it is given it holds
every state element and its output sequence, stays done and emits nothing: the pulse of a last `Print` is over after the first
of them. That giving an idle machine a step answers a next state, and that the pulse shows until then, are the model's choices
(log entries 9, DEDUCED, and 7, DESIGN CHOICE). -/
def Obligations.EndedRunIsIdleAndEmitsNothing : Prop :=
  ∀ (s : State) (n : Nat), s.stDone = true →
    s.issuedReads = [] ∧
    ∃ t : State, Host.Core.run Sys2Proof.core (n + 1) s = .next t ∧ t = { s with outPort := none } ∧
      t.outValid = false ∧ t.stDone = true ∧ t.issuedReads = []
end

