-- ==== Sys2Proof/Laws/Decode.lean ====
section
/-! SUPPORT. What the lookup of an opcode word answers. -/

namespace Sys2Proof

variable {m : OpcodeMap} {w : Word} {op a b : Opcode}

theorem Opcode.mem_all (op : Opcode) : op ∈ Opcode.all := by cases op <;> decide

/-- The words of a legal map are distinct. -/
theorem OpcodeMap.word_inj (hm : m.wf) (h : m.word a = m.word b) : a = b :=
  List.inj_on_of_nodup_map hm a.mem_all b.mem_all h

theorem OpcodeMap.word_of_opcodeOf (h : m.opcodeOf w = some op) : m.word op = w := by
  simpa using List.find?_some h

theorem OpcodeMap.opcodeOf_eq_none : m.opcodeOf w = none ↔ ∀ op, m.word op ≠ w := by
  unfold OpcodeMap.opcodeOf
  rw [List.find?_eq_none]
  exact ⟨fun h op => by simpa using h op op.mem_all, fun h op _ => by simpa using h op⟩

/-- A legal map's word is looked up as the opcode it stands for. -/
theorem OpcodeMap.opcodeOf_word (hm : m.wf) : m.opcodeOf (m.word op) = some op := by
  rcases h : m.opcodeOf (m.word op) with _ | op'
  · exact absurd rfl (OpcodeMap.opcodeOf_eq_none.mp h op)
  · rw [OpcodeMap.word_inj hm (OpcodeMap.word_of_opcodeOf h)]

end Sys2Proof
end

