-- ==== Sys2Proof/Laws/Memory.lean ====
section
/-! SUPPORT. The laws of the word memories: read after write, and the canonical form that every write keeps. -/

namespace Sys2Proof.Machine

variable {m : Memory} {a b n : Nat} {v : Word}

/-! ### Reads -/

@[simp] theorem Memory.read_nil : Memory.read [] a = Memory.unlisted := rfl

theorem Memory.read_cons (c : Nat × Word) :
    Memory.read (c :: m) a = if a = c.1 then c.2 else Memory.read m a := by
  obtain ⟨k, w⟩ := c
  by_cases h : a = k
  · simp [Memory.read, h]
  · simp [Memory.read, List.lookup_cons, beq_false_of_ne h, h]

theorem Memory.read_filter_self : Memory.read (m.filter fun c => c.1 != a) a = Memory.unlisted := by
  induction m with
  | nil => rfl
  | cons c m ih =>
    by_cases h : c.1 = a
    · simpa [List.filter_cons, h] using ih
    · simp [h, Memory.read_cons, Ne.symm h, ih]

theorem Memory.read_filter_other (h : b ≠ a) : Memory.read (m.filter fun c => c.1 != a) b = m.read b := by
  induction m with
  | nil => rfl
  | cons c m ih =>
    by_cases hc : c.1 = a
    · simp [hc, Memory.read_cons, h, ih]
    · simp [hc, Memory.read_cons, ih]

/-- In a memory that lists no cell at `a`, the inserted cell is the one read at `a`; every other read is as before. -/
theorem Memory.read_insertCell (habsent : ∀ c ∈ m, c.1 ≠ a) :
    Memory.read (Memory.insertCell (a, v) m) b = if b = a then v else m.read b := by
  induction m with
  | nil => simp [Memory.insertCell, Memory.read_cons]
  | cons d m ih =>
    have hd : d.1 ≠ a := habsent d (by simp)
    have ih := ih fun c hc => habsent c (by simp [hc])
    unfold Memory.insertCell
    split
    · simp [Memory.read_cons]
    · rw [Memory.read_cons, ih, Memory.read_cons]
      by_cases hb : b = d.1
      · simp [hb, hd]
      · simp [hb]

theorem Memory.filter_absent : ∀ c ∈ m.filter (fun c => c.1 != a), c.1 ≠ a := by
  intro c hc
  simpa using (List.mem_filter.mp hc).2

/-- Everything a read after a write can answer. -/
theorem Memory.read_write : (m.write a v).read b = if b = a then v else m.read b := by
  unfold Memory.write
  by_cases hv : v = Memory.unlisted
  · by_cases hb : b = a
    · simp [hv, hb, Memory.read_filter_self]
    · simp [hv, hb, Memory.read_filter_other]
  · simp only [hv, if_false, Memory.read_insertCell Memory.filter_absent]
    by_cases hb : b = a
    · simp [hb]
    · simp [hb, Memory.read_filter_other]

@[simp] theorem Memory.read_write_same : (m.write a v).read a = v := by simp [Memory.read_write]

@[simp] theorem Memory.read_write_other (h : b ≠ a) : (m.write a v).read b = m.read b := by simp [Memory.read_write, h]

/-- Everything a read after a run of writes can answer. -/
theorem Memory.read_writeFrom (ws : List Word) :
    (m.writeFrom a ws).read b = if h : a ≤ b ∧ b - a < ws.length then ws[b - a]'h.2 else m.read b := by
  induction ws generalizing a with
  | nil => simp [Memory.writeFrom]
  | cons w ws ih =>
    simp only [Memory.writeFrom, Memory.read_write, ih]
    by_cases hb : b = a
    · simp [hb]
    · by_cases hle : a ≤ b
      · obtain ⟨k, rfl⟩ : ∃ k, b = a + 1 + k := ⟨b - (a + 1), by omega⟩
        have h1 : a + 1 + k - a = k + 1 := by omega
        have h2 : a + 1 + k - (a + 1) = k := by omega
        simp [hb, h1, h2, show a ≤ a + 1 + k by omega]
      · simp [hb, hle, show ¬ a + 1 ≤ b by omega]

/-! ### The canonical form -/

theorem Memory.wf_nil : Memory.wf [] := ⟨List.Pairwise.nil, fun _ h => nomatch h⟩

theorem Memory.mem_insertCell {c d : Nat × Word} : d ∈ Memory.insertCell c m ↔ d = c ∨ d ∈ m := by
  induction m with
  | nil => simp [Memory.insertCell]
  | cons e m ih =>
    unfold Memory.insertCell
    split
    · simp
    · simp [ih, or_left_comm]

theorem Memory.pairwise_insertCell (hm : m.Pairwise fun c d => c.1 < d.1) (habsent : ∀ c ∈ m, c.1 ≠ a) :
    (Memory.insertCell (a, v) m).Pairwise fun c d => c.1 < d.1 := by
  induction m with
  | nil => simp [Memory.insertCell]
  | cons d m ih =>
    obtain ⟨hd, hm⟩ := List.pairwise_cons.mp hm
    have hda : d.1 ≠ a := habsent d (by simp)
    unfold Memory.insertCell
    split
    next hlt =>
      refine List.pairwise_cons.mpr ⟨?_, List.pairwise_cons.mpr ⟨hd, hm⟩⟩
      rintro e he
      obtain rfl | he := List.mem_cons.mp he
      · exact hlt
      · exact lt_trans hlt (hd e he)
    next hge =>
      refine List.pairwise_cons.mpr ⟨?_, ih hm fun c hc => habsent c (by simp [hc])⟩
      intro e he
      obtain rfl | he := Memory.mem_insertCell.mp he
      · simp only at hge ⊢; omega
      · exact hd e he

/-- A write keeps the canonical form. -/
theorem Memory.write_wf (hm : m.wf) : (m.write a v).wf := by
  have hkept : (m.filter fun c => c.1 != a).Pairwise fun c d => c.1 < d.1 := hm.1.filter _
  have hlisted : ∀ c ∈ m.filter (fun c => c.1 != a), c.2 ≠ Memory.unlisted :=
    fun c hc => hm.2 c (List.mem_filter.mp hc).1
  unfold Memory.write
  by_cases hv : v = Memory.unlisted
  · simpa only [hv, if_true] using And.intro hkept hlisted
  · simp only [hv, if_false]
    refine ⟨Memory.pairwise_insertCell hkept Memory.filter_absent, fun c hc => ?_⟩
    obtain rfl | hc := Memory.mem_insertCell.mp hc
    · exact hv
    · exact hlisted c hc

/-- A write inside the space stays inside it. -/
theorem Memory.write_below (hm : m.below n) (ha : a < n) : (m.write a v).below n := by
  intro c hc
  unfold Memory.write at hc
  simp only at hc
  split at hc
  · exact hm c (List.mem_filter.mp hc).1
  · obtain rfl | hc := Memory.mem_insertCell.mp hc
    · exact ha
    · exact hm c (List.mem_filter.mp hc).1

/-- A run of writes keeps the canonical form. -/
theorem Memory.writeFrom_wf (hm : m.wf) (ws : List Word) : (m.writeFrom a ws).wf := by
  induction ws generalizing a with
  | nil => exact hm
  | cons w ws ih => exact Memory.write_wf ih

/-- A run of writes inside the space stays inside it. -/
theorem Memory.writeFrom_below (hm : m.below n) (ws : List Word) (h : a + ws.length ≤ n) :
    (m.writeFrom a ws).below n := by
  induction ws generalizing a with
  | nil => exact hm
  | cons w ws ih =>
    simp only [List.length_cons] at h
    exact Memory.write_below (ih (by omega)) (by omega)

/-- The memories of the state after reset are in canonical form. -/
theorem State.reset_memories_wf : State.reset.program.wf ∧ State.reset.stack.wf := ⟨Memory.wf_nil, Memory.wf_nil⟩

end Sys2Proof.Machine
end

