-- ==== Sys2Proof/Laws/State.lean ====
section
/-! SUPPORT. One lemma per field and per named update of State, so that no later proof unfolds a record update. -/

namespace Sys2Proof.Machine

variable (s : State)

/-! ### `State.pushed` -/

@[simp] theorem State.pushed_cfg (v : Word) : (s.pushed v).cfg = s.cfg := rfl
@[simp] theorem State.pushed_program (v : Word) : (s.pushed v).program = s.program := rfl
@[simp] theorem State.pushed_pc (v : Word) : (s.pushed v).pc = s.pc := rfl
@[simp] theorem State.pushed_sp (v : Word) : (s.pushed v).sp = s.sp + 1 := rfl
@[simp] theorem State.pushed_state (v : Word) : (s.pushed v).state = s.state := rfl
@[simp] theorem State.pushed_steps (v : Word) : (s.pushed v).steps = s.steps := rfl
@[simp] theorem State.pushed_stack (v : Word) : (s.pushed v).stack = s.stack.write (s.sp + 1).toNat v := rfl
@[simp] theorem State.pushed_cause (v : Word) : (s.pushed v).cause = s.cause := rfl
@[simp] theorem State.pushed_limitEnQ (v : Word) : (s.pushed v).limitEnQ = s.limitEnQ := rfl
@[simp] theorem State.pushed_stepLimitQ (v : Word) : (s.pushed v).stepLimitQ = s.stepLimitQ := rfl
@[simp] theorem State.pushed_outPort (v : Word) : (s.pushed v).outPort = s.outPort := rfl
@[simp] theorem State.pushed_output (v : Word) : (s.pushed v).output = s.output := rfl
@[simp] theorem State.pushed_draws (v : Word) : (s.pushed v).draws = s.draws := rfl

/-! ### `State.popped` -/

@[simp] theorem State.popped_cfg : s.popped.cfg = s.cfg := rfl
@[simp] theorem State.popped_program : s.popped.program = s.program := rfl
@[simp] theorem State.popped_pc : s.popped.pc = s.pc := rfl
@[simp] theorem State.popped_sp : s.popped.sp = s.sp - 1 := rfl
@[simp] theorem State.popped_state : s.popped.state = s.state := rfl
@[simp] theorem State.popped_steps : s.popped.steps = s.steps := rfl
@[simp] theorem State.popped_stack : s.popped.stack = s.stack := rfl
@[simp] theorem State.popped_cause : s.popped.cause = s.cause := rfl
@[simp] theorem State.popped_limitEnQ : s.popped.limitEnQ = s.limitEnQ := rfl
@[simp] theorem State.popped_stepLimitQ : s.popped.stepLimitQ = s.stepLimitQ := rfl
@[simp] theorem State.popped_outPort : s.popped.outPort = s.outPort := rfl
@[simp] theorem State.popped_output : s.popped.output = s.output := rfl
@[simp] theorem State.popped_draws : s.popped.draws = s.draws := rfl

/-! ### `State.broken` -/

@[simp] theorem State.broken_cfg (c : Cause) : (s.broken c).cfg = s.cfg := rfl
@[simp] theorem State.broken_program (c : Cause) : (s.broken c).program = s.program := rfl
@[simp] theorem State.broken_pc (c : Cause) : (s.broken c).pc = s.pc := rfl
@[simp] theorem State.broken_sp (c : Cause) : (s.broken c).sp = s.sp := rfl
@[simp] theorem State.broken_state (c : Cause) : (s.broken c).state = .brk := rfl
@[simp] theorem State.broken_steps (c : Cause) : (s.broken c).steps = s.steps := rfl
@[simp] theorem State.broken_stack (c : Cause) : (s.broken c).stack = s.stack := rfl
@[simp] theorem State.broken_cause (c : Cause) : (s.broken c).cause = c := rfl
@[simp] theorem State.broken_limitEnQ (c : Cause) : (s.broken c).limitEnQ = s.limitEnQ := rfl
@[simp] theorem State.broken_stepLimitQ (c : Cause) : (s.broken c).stepLimitQ = s.stepLimitQ := rfl
@[simp] theorem State.broken_outPort (c : Cause) : (s.broken c).outPort = s.outPort := rfl
@[simp] theorem State.broken_output (c : Cause) : (s.broken c).output = s.output := rfl
@[simp] theorem State.broken_draws (c : Cause) : (s.broken c).draws = s.draws := rfl

/-! ### `State.haltedNow` -/

@[simp] theorem State.haltedNow_cfg : s.haltedNow.cfg = s.cfg := rfl
@[simp] theorem State.haltedNow_program : s.haltedNow.program = s.program := rfl
@[simp] theorem State.haltedNow_pc : s.haltedNow.pc = s.pc := rfl
@[simp] theorem State.haltedNow_sp : s.haltedNow.sp = s.sp := rfl
@[simp] theorem State.haltedNow_state : s.haltedNow.state = .halted := rfl
@[simp] theorem State.haltedNow_steps : s.haltedNow.steps = s.steps := rfl
@[simp] theorem State.haltedNow_stack : s.haltedNow.stack = s.stack := rfl
@[simp] theorem State.haltedNow_cause : s.haltedNow.cause = s.cause := rfl
@[simp] theorem State.haltedNow_limitEnQ : s.haltedNow.limitEnQ = s.limitEnQ := rfl
@[simp] theorem State.haltedNow_stepLimitQ : s.haltedNow.stepLimitQ = s.stepLimitQ := rfl
@[simp] theorem State.haltedNow_outPort : s.haltedNow.outPort = s.outPort := rfl
@[simp] theorem State.haltedNow_output : s.haltedNow.output = s.output := rfl
@[simp] theorem State.haltedNow_draws : s.haltedNow.draws = s.draws := rfl

/-! ### `State.emitted` -/

@[simp] theorem State.emitted_cfg (v : Word) : (s.emitted v).cfg = s.cfg := rfl
@[simp] theorem State.emitted_program (v : Word) : (s.emitted v).program = s.program := rfl
@[simp] theorem State.emitted_pc (v : Word) : (s.emitted v).pc = s.pc := rfl
@[simp] theorem State.emitted_sp (v : Word) : (s.emitted v).sp = s.sp := rfl
@[simp] theorem State.emitted_state (v : Word) : (s.emitted v).state = s.state := rfl
@[simp] theorem State.emitted_steps (v : Word) : (s.emitted v).steps = s.steps := rfl
@[simp] theorem State.emitted_stack (v : Word) : (s.emitted v).stack = s.stack := rfl
@[simp] theorem State.emitted_cause (v : Word) : (s.emitted v).cause = s.cause := rfl
@[simp] theorem State.emitted_limitEnQ (v : Word) : (s.emitted v).limitEnQ = s.limitEnQ := rfl
@[simp] theorem State.emitted_stepLimitQ (v : Word) : (s.emitted v).stepLimitQ = s.stepLimitQ := rfl
@[simp] theorem State.emitted_outPort (v : Word) : (s.emitted v).outPort = some v := rfl
@[simp] theorem State.emitted_output (v : Word) : (s.emitted v).output = s.output ++ [v] := rfl
@[simp] theorem State.emitted_draws (v : Word) : (s.emitted v).draws = s.draws := rfl

/-! ### `State.drawn` -/

@[simp] theorem State.drawn_cfg : s.drawn.cfg = s.cfg := rfl
@[simp] theorem State.drawn_program : s.drawn.program = s.program := rfl
@[simp] theorem State.drawn_pc : s.drawn.pc = s.pc := rfl
@[simp] theorem State.drawn_sp : s.drawn.sp = s.sp := rfl
@[simp] theorem State.drawn_state : s.drawn.state = s.state := rfl
@[simp] theorem State.drawn_steps : s.drawn.steps = s.steps := rfl
@[simp] theorem State.drawn_stack : s.drawn.stack = s.stack := rfl
@[simp] theorem State.drawn_cause : s.drawn.cause = s.cause := rfl
@[simp] theorem State.drawn_limitEnQ : s.drawn.limitEnQ = s.limitEnQ := rfl
@[simp] theorem State.drawn_stepLimitQ : s.drawn.stepLimitQ = s.stepLimitQ := rfl
@[simp] theorem State.drawn_outPort : s.drawn.outPort = s.outPort := rfl
@[simp] theorem State.drawn_output : s.drawn.output = s.output := rfl
@[simp] theorem State.drawn_draws : s.drawn.draws = s.draws + 1 := rfl

/-! ### `State.atPc` -/

@[simp] theorem State.atPc_cfg (p : Word) : (s.atPc p).cfg = s.cfg := rfl
@[simp] theorem State.atPc_program (p : Word) : (s.atPc p).program = s.program := rfl
@[simp] theorem State.atPc_pc (p : Word) : (s.atPc p).pc = p := rfl
@[simp] theorem State.atPc_sp (p : Word) : (s.atPc p).sp = s.sp := rfl
@[simp] theorem State.atPc_state (p : Word) : (s.atPc p).state = s.state := rfl
@[simp] theorem State.atPc_steps (p : Word) : (s.atPc p).steps = s.steps := rfl
@[simp] theorem State.atPc_stack (p : Word) : (s.atPc p).stack = s.stack := rfl
@[simp] theorem State.atPc_cause (p : Word) : (s.atPc p).cause = s.cause := rfl
@[simp] theorem State.atPc_limitEnQ (p : Word) : (s.atPc p).limitEnQ = s.limitEnQ := rfl
@[simp] theorem State.atPc_stepLimitQ (p : Word) : (s.atPc p).stepLimitQ = s.stepLimitQ := rfl
@[simp] theorem State.atPc_outPort (p : Word) : (s.atPc p).outPort = s.outPort := rfl
@[simp] theorem State.atPc_output (p : Word) : (s.atPc p).output = s.output := rfl
@[simp] theorem State.atPc_draws (p : Word) : (s.atPc p).draws = s.draws := rfl

/-! ### `State.begun` -/

@[simp] theorem State.begun_cfg : s.begun.cfg = s.cfg := rfl
@[simp] theorem State.begun_program : s.begun.program = s.program := rfl
@[simp] theorem State.begun_pc : s.begun.pc = s.pc := rfl
@[simp] theorem State.begun_sp : s.begun.sp = s.sp := rfl
@[simp] theorem State.begun_state : s.begun.state = s.state := rfl
@[simp] theorem State.begun_steps : s.begun.steps = s.steps := rfl
@[simp] theorem State.begun_stack : s.begun.stack = s.stack := rfl
@[simp] theorem State.begun_cause : s.begun.cause = s.cause := rfl
@[simp] theorem State.begun_limitEnQ : s.begun.limitEnQ = s.limitEnQ := rfl
@[simp] theorem State.begun_stepLimitQ : s.begun.stepLimitQ = s.stepLimitQ := rfl
@[simp] theorem State.begun_outPort : s.begun.outPort = none := rfl
@[simp] theorem State.begun_output : s.begun.output = s.output := rfl
@[simp] theorem State.begun_draws : s.begun.draws = s.draws := rfl

/-! ### `State.counted` -/

@[simp] theorem State.counted_cfg : s.counted.cfg = s.cfg := rfl
@[simp] theorem State.counted_program : s.counted.program = s.program := rfl
@[simp] theorem State.counted_pc : s.counted.pc = s.pc := rfl
@[simp] theorem State.counted_sp : s.counted.sp = s.sp := rfl
@[simp] theorem State.counted_state : s.counted.state = s.state := rfl
@[simp] theorem State.counted_steps : s.counted.steps = s.steps + 1 := rfl
@[simp] theorem State.counted_stack : s.counted.stack = s.stack := rfl
@[simp] theorem State.counted_cause : s.counted.cause = s.cause := rfl
@[simp] theorem State.counted_limitEnQ : s.counted.limitEnQ = s.limitEnQ := rfl
@[simp] theorem State.counted_stepLimitQ : s.counted.stepLimitQ = s.stepLimitQ := rfl
@[simp] theorem State.counted_outPort : s.counted.outPort = s.outPort := rfl
@[simp] theorem State.counted_output : s.counted.output = s.output := rfl
@[simp] theorem State.counted_draws : s.counted.draws = s.draws := rfl

/-! ### `State.finished` -/

@[simp] theorem State.finished_of_running (len : Nat) (h : s.state = .running) :
    s.finished len = s.counted.atPc (s.pc + BitVec.ofNat 32 len) := by simp [State.finished, h]

@[simp] theorem State.finished_of_ended (len : Nat) (h : s.state ≠ .running) : s.finished len = s.counted := by
  simp [State.finished, h]


@[simp] theorem State.finished_cfg (len : Nat) : (s.finished len).cfg = s.cfg := by
  unfold State.finished; split <;> rfl
@[simp] theorem State.finished_program (len : Nat) : (s.finished len).program = s.program := by
  unfold State.finished; split <;> rfl
@[simp] theorem State.finished_sp (len : Nat) : (s.finished len).sp = s.sp := by
  unfold State.finished; split <;> rfl
@[simp] theorem State.finished_state (len : Nat) : (s.finished len).state = s.state := by
  unfold State.finished; split <;> rfl
@[simp] theorem State.finished_steps (len : Nat) : (s.finished len).steps = s.steps + 1 := by
  unfold State.finished; split <;> rfl
@[simp] theorem State.finished_stack (len : Nat) : (s.finished len).stack = s.stack := by
  unfold State.finished; split <;> rfl
@[simp] theorem State.finished_cause (len : Nat) : (s.finished len).cause = s.cause := by
  unfold State.finished; split <;> rfl
@[simp] theorem State.finished_limitEnQ (len : Nat) : (s.finished len).limitEnQ = s.limitEnQ := by
  unfold State.finished; split <;> rfl
@[simp] theorem State.finished_stepLimitQ (len : Nat) : (s.finished len).stepLimitQ = s.stepLimitQ := by
  unfold State.finished; split <;> rfl
@[simp] theorem State.finished_outPort (len : Nat) : (s.finished len).outPort = s.outPort := by
  unfold State.finished; split <;> rfl
@[simp] theorem State.finished_output (len : Nat) : (s.finished len).output = s.output := by
  unfold State.finished; split <;> rfl
@[simp] theorem State.finished_draws (len : Nat) : (s.finished len).draws = s.draws := by
  unfold State.finished; split <;> rfl

end Sys2Proof.Machine
end

