-- ==== Sys2Proof/Laws/Ops.lean ====
section
/-! SUPPORT. For each shared operation: what it answers in each of its cases, and one lemma that says all of them. -/

namespace Sys2Proof.Machine

variable {s t : State} {v a : Word} {k : State → Result} {kv : Word → State → Result}

/-! ### `raise Break` -/

@[simp] theorem raiseBreak_eq_next {c : Cause} : raiseBreak c s = .next t ↔ s.broken c = t := by simp [raiseBreak]

@[simp] theorem done_eq : done s = .next s := rfl

theorem done_eq_next : done s = .next t ↔ s = t := by simp

/-! ### `Push` -/

/-- A full stack: nothing is written but `cause` and `state`. -/
theorem push_of_full (h : (s.cfg.stackCapacity : Int) - 1 ≤ s.sp) : push v s k = .next (s.broken .stackOverflow) := by
  simp [push, h, raiseBreak]

/-- A stack with room. -/
theorem push_of_room (hlow : -1 ≤ s.sp) (hroom : s.sp + 1 < s.cfg.stackCapacity) : push v s k = k (s.pushed v) := by
  have : ¬ s.sp ≥ (s.cfg.stackCapacity : Int) - 1 := by omega
  simp [push, this, hlow]

/-- Everything a `Push` can do when the effect answers a next state. -/
theorem push_cases (h : push v s k = .next t) :
    ((s.cfg.stackCapacity : Int) - 1 ≤ s.sp ∧ t = s.broken .stackOverflow) ∨
      (-1 ≤ s.sp ∧ s.sp + 1 < s.cfg.stackCapacity ∧ k (s.pushed v) = .next t) := by
  unfold push at h
  split at h
  · exact .inl ⟨‹_›, (raiseBreak_eq_next.mp h).symm⟩
  · split at h
    · exact .inr ⟨‹_›, by omega, h⟩
    · cases h

/-! ### `Pop` -/

/-- An empty stack: nothing is written but `cause` and `state`. -/
theorem pop_of_empty (h : s.sp < 0) : pop s kv = .next (s.broken .stackUnderflow) := by simp [pop, h, raiseBreak]

/-- A stack with an entry. -/
theorem pop_of_entry (hlow : 0 ≤ s.sp) (hhigh : s.sp < s.cfg.stackCapacity) : pop s kv = kv (s.entry s.sp) s.popped := by
  simp [pop, not_lt.mpr hlow, hhigh]

/-- Everything a `Pop` can do when the effect answers a next state. -/
theorem pop_cases (h : pop s kv = .next t) :
    (s.sp < 0 ∧ t = s.broken .stackUnderflow) ∨
      (0 ≤ s.sp ∧ s.sp < s.cfg.stackCapacity ∧ kv (s.entry s.sp) s.popped = .next t) := by
  unfold pop at h
  split at h
  · exact .inl ⟨‹_›, (raiseBreak_eq_next.mp h).symm⟩
  · split at h
    · exact .inr ⟨by omega, ‹_›, h⟩
    · cases h

/-- Two pops that both find an entry. -/
theorem popTwo_of_entries {k : Word → Word → State → Result} (hlow : 1 ≤ s.sp) (hhigh : s.sp < s.cfg.stackCapacity) :
    popTwo s k = k (s.entry s.sp) (s.entry (s.sp - 1)) s.popped.popped := by
  unfold popTwo
  rw [pop_of_entry (by omega) hhigh, pop_of_entry (by simpa using hlow) (by simp; omega)]
  simp [State.entry]

/-- The first of two pops finds the stack empty. -/
theorem popTwo_of_empty {k : Word → Word → State → Result} (h : s.sp < 0) :
    popTwo s k = .next (s.broken .stackUnderflow) := pop_of_empty h

/-- The second of two pops finds the stack empty: the one entry is lost. -/
theorem popTwo_of_one {k : Word → Word → State → Result} (h : s.sp = 0) (hcap : 0 < s.cfg.stackCapacity) :
    popTwo s k = .next (s.popped.broken .stackUnderflow) := by
  unfold popTwo
  rw [pop_of_entry (by omega) (by omega), pop_of_empty (by simp [h])]

/-- Everything two pops can do when the effect answers a next state. -/
theorem popTwo_cases {k : Word → Word → State → Result} (h : popTwo s k = .next t) :
    (s.sp < 0 ∧ t = s.broken .stackUnderflow) ∨
      (s.sp = 0 ∧ 0 < s.cfg.stackCapacity ∧ t = s.popped.broken .stackUnderflow) ∨
      (1 ≤ s.sp ∧ s.sp < s.cfg.stackCapacity ∧
        k (s.entry s.sp) (s.entry (s.sp - 1)) s.popped.popped = .next t) := by
  obtain ⟨hlt, rfl⟩ | ⟨hle, hcap, h⟩ := pop_cases h
  · exact .inl ⟨hlt, rfl⟩
  · obtain ⟨hlt, rfl⟩ | ⟨hle', hcap', h⟩ := pop_cases h
    · simp only [State.popped_sp] at hlt
      exact .inr (.inl ⟨by omega, by omega, rfl⟩)
    · simp only [State.popped_sp, State.popped_cfg] at hle' hcap'
      exact .inr (.inr ⟨by omega, hcap, by simpa [State.entry] using h⟩)

/-! ### `Emit`, `DrawRand`, branches -/

@[simp] theorem emit_eq : emit v s k = k (s.emitted v) := rfl

@[simp] theorem drawRand_eq : drawRand s kv = kv (Config.randDraw s.draws) s.drawn := rfl

@[simp] theorem branchBy_eq : branchBy a s = .next (s.atPc (s.pc + a)) := rfl

/-! ### Entries -/

@[simp] theorem State.entry_popped (i : Int) : s.popped.entry i = s.entry i := rfl

@[simp] theorem State.entry_broken (c : Cause) (i : Int) : (s.broken c).entry i = s.entry i := rfl

theorem State.entry_pushed (i : Int) :
    (s.pushed v).entry i = if i.toNat = (s.sp + 1).toNat then v else s.entry i := by
  simp [State.entry, Memory.read_write]

/-! ### One step -/

/-- Everything a step can do when it answers a next state. -/
theorem step_cases (h : step s = .next t) :
    (s.canStep = false ∧ t = s.begun) ∨
      (s.canStep = true ∧ ∃ u, exec s.fetchDecode.instr s.begun = .next u ∧ t = u.finished s.fetchDecode.len) := by
  unfold step at h
  split at h
  next hcan =>
    refine .inr ⟨hcan, ?_⟩
    split at h
    next u hu => exact ⟨u, hu, by simpa using h.symm⟩
    all_goals cases h
  next hcan => exact .inl ⟨by simpa using hcan, by simpa using h.symm⟩

theorem step_of_idle (h : s.canStep = false) : step s = .next s.begun := by simp [step, h]

theorem step_of_exec (hcan : s.canStep = true) (h : exec s.fetchDecode.instr s.begun = .next t) :
    step s = .next (t.finished s.fetchDecode.len) := by simp [step, hcan, h]

/-- The first of several steps. -/
theorem run_of_step {n : Nat} (h : step s = .next t) :
    Host.Core.run Sys2Proof.core (n + 1) s = Host.Core.run Sys2Proof.core n t := by
  have hcore : Sys2Proof.core.step s = .next t := h
  simp only [Host.Core.run, hcore]

/-- What `CanStep()` says (`spec/40_machine_control.md` R80). -/
theorem State.canStep_iff :
    s.canStep = true ↔ s.state = .running ∧ (s.limitEnQ = false ∨ s.steps.toNat < s.stepLimitQ.toNat) := by
  simp [State.canStep]

end Sys2Proof.Machine
end

