-- ==== Sys2Proof/Laws/Lockstep.lean ====
section
/-! SUPPORT. Two runs of one instruction side by side: a relation that every micro-operation keeps, and under which both read the
same operands, is kept by every instruction. -/

namespace Sys2Proof.Machine

/-- `R` relates states that agree on what the micro-operations read, and is kept when both make the same writes. -/
structure LockstepClosed (R : State → State → Prop) : Prop where
  sp : ∀ s s', R s s' → s'.sp = s.sp
  capacity : ∀ s s', R s s' → s'.cfg.stackCapacity = s.cfg.stackCapacity
  pc : ∀ s s', R s s' → s'.pc = s.pc
  top : ∀ s s', R s s' → 0 ≤ s.sp → s'.entry s.sp = s.entry s.sp
  popped : ∀ s s', R s s' → R s.popped s'.popped
  pushed : ∀ s s' v, R s s' → R (s.pushed v) (s'.pushed v)
  broken : ∀ s s' c, R s s' → R (s.broken c) (s'.broken c)
  haltedNow : ∀ s s', R s s' → R s.haltedNow s'.haltedNow
  emitted : ∀ s s' v, R s s' → R (s.emitted v) (s'.emitted v)
  atPc : ∀ s s' p, R s s' → R (s.atPc p) (s'.atPc p)

/-- From related states, when `k` answers a next state so does `k'`, and the two are related. -/
def Lockstep (R : State → State → Prop) (k k' : State → Result) : Prop :=
  ∀ s s' t, R s s' → k s = .next t → ∃ t', k' s' = .next t' ∧ R t t'

section

variable {R : State → State → Prop}

theorem lockstep_done : Lockstep R done done := fun _ s' _ hR h => ⟨s', rfl, done_eq_next.mp h ▸ hR⟩

theorem LockstepClosed.raiseBreak (hc : LockstepClosed R) (c : Cause) : Lockstep R (raiseBreak c) (raiseBreak c) :=
  fun s s' _ hR h => ⟨s'.broken c, rfl, raiseBreak_eq_next.mp h ▸ hc.broken s s' c hR⟩

theorem LockstepClosed.push (hc : LockstepClosed R) (v : Word) {k k' : State → Result} (hk : Lockstep R k k') :
    Lockstep R (fun s => push v s k) fun s => push v s k' := by
  intro s s' t hR h
  have hsp := hc.sp s s' hR
  have hcap := hc.capacity s s' hR
  obtain ⟨hfull, rfl⟩ | ⟨hlow, hroom, h⟩ := push_cases h
  · exact ⟨_, push_of_full (by omega), hc.broken s s' _ hR⟩
  · obtain ⟨t', ht', hR'⟩ := hk _ _ t (hc.pushed s s' v hR) h
    exact ⟨t', (push_of_room (by omega) (by omega)).trans ht', hR'⟩

theorem LockstepClosed.pop (hc : LockstepClosed R) {k k' : Word → State → Result} (hk : ∀ v, Lockstep R (k v) (k' v)) :
    Lockstep R (fun s => pop s k) fun s => pop s k' := by
  intro s s' t hR h
  have hsp := hc.sp s s' hR
  have hcap := hc.capacity s s' hR
  obtain ⟨hempty, rfl⟩ | ⟨hlow, hhigh, h⟩ := pop_cases h
  · exact ⟨_, pop_of_empty (by omega), hc.broken s s' _ hR⟩
  · obtain ⟨t', ht', hR'⟩ := hk _ _ _ t (hc.popped s s' hR) h
    refine ⟨t', (pop_of_entry (by omega) (by omega)).trans ?_, hR'⟩
    rw [hsp, hc.top s s' hR hlow, ht']

theorem LockstepClosed.popTwo (hc : LockstepClosed R) {k k' : Word → Word → State → Result}
    (hk : ∀ a b, Lockstep R (k a b) (k' a b)) : Lockstep R (fun s => popTwo s k) fun s => popTwo s k' :=
  hc.pop fun a => hc.pop (k := k a) (k' := k' a) (hk a)

theorem LockstepClosed.branchBy (hc : LockstepClosed R) (imm : Word) : Lockstep R (branchBy imm) (branchBy imm) := by
  intro s s' t hR h
  simp only [branchBy_eq, Host.Outcome.next.injEq] at h
  exact ⟨_, rfl, by rw [hc.pc s s' hR, ← h]; exact hc.atPc s s' _ hR⟩

theorem LockstepClosed.branchIf (hc : LockstepClosed R) (taken : Word → Bool) (imm : Word) :
    Lockstep R (branchIf taken imm) (branchIf taken imm) := by
  refine hc.pop fun v => ?_
  by_cases hv : taken v = true
  · simp only [hv, if_true]; exact hc.branchBy imm
  · simp only [hv]; exact lockstep_done

/-- Every instruction keeps the relation; `Rand` does if the two sources show the same draw and the relation outlasts it. -/
theorem exec_lockstep (hc : LockstepClosed R) (i : Instr)
    (hrand : i = .rand → ∀ s s', R s s' → s'.draws = s.draws ∧ R s.drawn s'.drawn) : Lockstep R (exec i) (exec i) := by
  have one : ∀ v, Lockstep R (fun s => Machine.push v s done) fun s => Machine.push v s done :=
    fun v => hc.push v lockstep_done
  have two : ∀ v w, Lockstep R (fun s => Machine.push v s fun s => Machine.push w s done)
      fun s => Machine.push v s fun s => Machine.push w s done := fun v w => hc.push v (one w)
  cases i with
  | brk dcause => exact hc.raiseBreak _
  | nop => exact lockstep_done
  | halt => exact fun s s' t hR h => ⟨_, rfl, done_eq_next.mp h ▸ hc.haltedNow s s' hR⟩
  | push imm => exact one imm
  | print =>
    exact hc.pop (k := fun v s => emit v s done) (k' := fun v s => emit v s done)
      fun v s s' t hR h => ⟨_, rfl, done_eq_next.mp h ▸ hc.emitted s s' v hR⟩
  | jne imm => exact hc.branchIf _ imm
  | swap => exact hc.popTwo two
  | dup => exact hc.pop fun a => two a a
  | je imm => exact hc.branchIf _ imm
  | inc => exact hc.pop fun a => one (aluInc a)
  | add => exact hc.popTwo fun a b => one (aluAdd a b)
  | sub => exact hc.popTwo fun a b => one (aluSub a b)
  | mul => exact hc.popTwo fun a b => one (aluMul a b)
  | rand =>
    intro s s' t hR h
    obtain ⟨hdraws, hR'⟩ := hrand rfl s s' hR
    obtain ⟨t', ht', hRt⟩ := one _ _ _ t hR' h
    exact ⟨t', by simpa only [exec, execRand, drawRand_eq, hdraws] using ht', hRt⟩
  | dec => exact hc.pop fun a => one (aluDec a)
  | drop => exact hc.pop (k := fun _ s => done s) (k' := fun _ s => done s) fun _ => lockstep_done
  | ovr =>
    exact hc.popTwo (k := fun a b s => Machine.push b s fun s => Machine.push a s fun s => Machine.push b s done)
      (k' := fun a b s => Machine.push b s fun s => Machine.push a s fun s => Machine.push b s done)
      fun a b => hc.push b (two a b)
  | mod =>
    refine hc.popTwo
      (k := fun a b s => if isZero b then Machine.raiseBreak .modByZero s else Machine.push (aluMod a b) s done)
      (k' := fun a b s => if isZero b then Machine.raiseBreak .modByZero s else Machine.push (aluMod a b) s done)
      fun a b => ?_
    by_cases hb : isZero b = true
    · simp only [hb, if_true]; exact hc.raiseBreak .modByZero
    · simp only [hb]; exact one (aluMod a b)
  | jump imm => exact hc.branchBy imm

end

end Sys2Proof.Machine
end

