-- ==== Sys2Proof/Laws/PerInstr.lean ====
section
/-! SUPPORT. Facts stated instruction by instruction. -/

namespace Sys2Proof.Laws.EncodedLength

/-- An instruction's encoding is as long as `spec/30_encoding.md` R64 says its opcode is, under every opcode map. -/
def Statement (i : Instr) : Prop := ∀ m : OpcodeMap, (encode m i).length = i.opcode.length

theorem brk (dcause : DecodeCause) : Statement (.brk dcause) := fun _ => rfl
theorem nop : Statement .nop := fun _ => rfl
theorem halt : Statement .halt := fun _ => rfl
theorem push (imm : Word) : Statement (.push imm) := fun _ => rfl
theorem print : Statement .print := fun _ => rfl
theorem jne (imm : Word) : Statement (.jne imm) := fun _ => rfl
theorem swap : Statement .swap := fun _ => rfl
theorem dup : Statement .dup := fun _ => rfl
theorem je (imm : Word) : Statement (.je imm) := fun _ => rfl
theorem inc : Statement .inc := fun _ => rfl
theorem add : Statement .add := fun _ => rfl
theorem sub : Statement .sub := fun _ => rfl
theorem mul : Statement .mul := fun _ => rfl
theorem rand : Statement .rand := fun _ => rfl
theorem dec : Statement .dec := fun _ => rfl
theorem drop : Statement .drop := fun _ => rfl
theorem ovr : Statement .ovr := fun _ => rfl
theorem mod : Statement .mod := fun _ => rfl
theorem jump (imm : Word) : Statement (.jump imm) := fun _ => rfl

end Sys2Proof.Laws.EncodedLength
end

