-- ==== Sys2Proof/Laws/Preserve.lean ====
section
/-! SUPPORT. The induction over an instruction's micro-operations, once: a property that every micro-operation keeps is kept by
every instruction. -/

namespace Sys2Proof.Machine

/-- `P` is kept by the writes of a `Pop`, a `Push`, a draw and a `raise Break`, each under the condition it runs under. -/
structure Closed (P : State → Prop) : Prop where
  popped : ∀ s, P s → 0 ≤ s.sp → s.sp < s.cfg.stackCapacity → P s.popped
  pushed : ∀ s v, P s → -1 ≤ s.sp → s.sp + 1 < s.cfg.stackCapacity → P (s.pushed v)
  drawn : ∀ s, P s → P s.drawn
  broken : ∀ s c, P s → c ≠ .none → P (s.broken c)

/-- Whatever `k` answers from a state with `P` has `P`. -/
def Keeps (P : State → Prop) (k : State → Result) : Prop := ∀ s t, P s → k s = .next t → P t

section

variable {P : State → Prop}

theorem keeps_done : Keeps P done := fun _ _ hs h => done_eq_next.mp h ▸ hs

theorem Closed.keeps_raiseBreak (hP : Closed P) {c : Cause} (hc : c ≠ .none) : Keeps P (raiseBreak c) :=
  fun s _ hs h => raiseBreak_eq_next.mp h ▸ hP.broken s c hs hc

theorem Closed.keeps_push (hP : Closed P) {v : Word} {k : State → Result} (hk : Keeps P k) :
    Keeps P fun s => push v s k := by
  intro s t hs h
  obtain ⟨-, rfl⟩ | ⟨hlow, hroom, h⟩ := push_cases h
  · exact hP.broken s _ hs nofun
  · exact hk _ _ (hP.pushed s v hs hlow hroom) h

theorem Closed.keeps_pop (hP : Closed P) {k : Word → State → Result} (hk : ∀ v, Keeps P (k v)) :
    Keeps P fun s => pop s k := by
  intro s t hs h
  obtain ⟨-, rfl⟩ | ⟨hlow, hhigh, h⟩ := pop_cases h
  · exact hP.broken s _ hs nofun
  · exact hk _ _ _ (hP.popped s hs hlow hhigh) h

theorem Closed.keeps_popTwo (hP : Closed P) {k : Word → Word → State → Result} (hk : ∀ a b, Keeps P (k a b)) :
    Keeps P fun s => popTwo s k :=
  hP.keeps_pop fun a => hP.keeps_pop fun b => hk a b

theorem Closed.keeps_replaceTop (hP : Closed P) (f : Word → Word) : Keeps P (replaceTop f) :=
  hP.keeps_pop fun _ => hP.keeps_push keeps_done

theorem Closed.keeps_combineTopTwo (hP : Closed P) (f : Word → Word → Word) : Keeps P (combineTopTwo f) :=
  hP.keeps_popTwo fun _ _ => hP.keeps_push keeps_done

theorem keeps_branchBy {imm : Word} (hbranch : ∀ s p, P s → P (s.atPc p)) : Keeps P (branchBy imm) := by
  intro s t hs h
  simp only [branchBy_eq, Host.Outcome.next.injEq] at h
  exact h ▸ hbranch s _ hs

theorem Closed.keeps_branchIf (hP : Closed P) {taken : Word → Bool} {imm : Word}
    (hbranch : ∀ s p, P s → P (s.atPc p)) : Keeps P (branchIf taken imm) := by
  refine hP.keeps_pop fun v s t hs h => ?_
  split at h
  · exact keeps_branchBy hbranch s t hs h
  · exact keeps_done s t hs h

/-- A property that every micro-operation of the instruction `i` keeps is kept by `i`. -/
theorem exec_keeps (hP : Closed P) (i : Instr)
    (hhalt : i = .halt → ∀ s, P s → P s.haltedNow)
    (hprint : i = .print → ∀ s v, P s → P (s.emitted v))
    (hbranch : (∃ imm, i = .je imm ∨ i = .jne imm ∨ i = .jump imm) → ∀ s p, P s → P (s.atPc p)) :
    Keeps P (exec i) := by
  have one : ∀ v, Keeps P fun s => push v s done := fun _ => hP.keeps_push keeps_done
  have two : ∀ v w, Keeps P fun s => push v s fun s => push w s done := fun _ w => hP.keeps_push (one w)
  cases i with
  | brk dcause => exact hP.keeps_raiseBreak (by cases dcause <;> nofun)
  | nop => exact keeps_done
  | halt => exact fun s t hs h => done_eq_next.mp h ▸ hhalt rfl s hs
  | push imm => exact one imm
  | print =>
    exact hP.keeps_pop (k := fun v s => emit v s done) fun v s t hs h => done_eq_next.mp h ▸ hprint rfl s v hs
  | jne imm => exact hP.keeps_branchIf (hbranch ⟨imm, .inr (.inl rfl)⟩)
  | swap => exact hP.keeps_popTwo (k := fun a b s => push a s fun s => push b s done) two
  | dup => exact hP.keeps_pop (k := fun a s => push a s fun s => push a s done) fun a => two a a
  | je imm => exact hP.keeps_branchIf (hbranch ⟨imm, .inl rfl⟩)
  | inc => exact hP.keeps_replaceTop aluInc
  | add => exact hP.keeps_combineTopTwo aluAdd
  | sub => exact hP.keeps_combineTopTwo aluSub
  | mul => exact hP.keeps_combineTopTwo aluMul
  | rand => exact fun s t hs h => one _ _ t (hP.drawn s hs) h
  | dec => exact hP.keeps_replaceTop aluDec
  | drop => exact hP.keeps_pop (k := fun _ s => done s) fun _ => keeps_done
  | ovr =>
    exact hP.keeps_popTwo (k := fun a b s => push b s fun s => push a s fun s => push b s done)
      fun a b => hP.keeps_push (two a b)
  | mod =>
    refine hP.keeps_popTwo (k := fun a b s => if isZero b then raiseBreak .modByZero s else push (aluMod a b) s done)
      fun a b s t hs h => ?_
    split at h
    · exact hP.keeps_raiseBreak (c := .modByZero) nofun s t hs h
    · exact one _ s t hs h
  | jump imm => exact keeps_branchBy (hbranch ⟨imm, .inr (.inr rfl)⟩)

end

end Sys2Proof.Machine
end

