-- ==== Sys2Proof/Tests/Slice0.lean ====
section
/-! SUPPORT. The model's own tests: ill-formed terms, words written out from the spec's encodings, one step of each
instruction from the vectors of `spec/95_test_vectors.md`, and a witness for the hypotheses of each obligation. -/

namespace Sys2Proof.Tests

open Sys2Proof Sys2Proof.Machine

/-! ### Helpers -/

/-- The reset machine with the given stack (bottom first), `pc`, and words from `pc` on. -/
def mk (stack : List Word) (pc : Word) (words : List Word) : State :=
  { State.reset with
    stack := Memory.writeFrom [] 0 stack
    sp := stack.length - 1
    pc := pc
    program := Memory.writeFrom [] pc.toNat words }

/-- The next state, if there is one. -/
def nextOf (r : Result) : Option State :=
  match r with
  | .next t => some t
  | .fault _ => none
  | .refused _ => none

/-- What the vectors give of a step's end; the stack top first. -/
structure End where
  state : RunState
  cause : Cause
  pc : Word
  top : List Word
  steps : Count
  output : List Word
  deriving DecidableEq, Repr

def view (r : Result) : Option End := (nextOf r).map fun t => ⟨t.state, t.cause, t.pc, t.contents, t.steps, t.output⟩

/-- A step that goes on: `pc` and the stack (top first) after it. -/
def goesOn (s : State) (pc : Word) (top : List Word) : Prop := view (step s) = some ⟨.running, .none, pc, top, 1, []⟩

/-- A step that faults: the cause, `pc` and the stack (top first) after it. -/
def faults (s : State) (c : Cause) (pc : Word) (top : List Word) : Prop := view (step s) = some ⟨.brk, c, pc, top, 1, []⟩

/-! ### Well-formedness: each check refuses an ill-formed term -/

theorem test_wf_break_with_decoder_cause : (Instr.brk .undefinedOpcode).wellFormed = false := by decide
theorem test_wf_break : (Instr.brk .breakInsn).wellFormed = true := by decide
theorem test_wf_map_two_equal_words : ¬ ({ specOpcodeMap with nop := 2 } : OpcodeMap).wf := by decide
theorem test_wf_map_break_word_taken : ¬ ({ specOpcodeMap with jump := 0 } : OpcodeMap).wf := by decide
theorem test_wf_config_no_program : ¬ ({ State.reset.cfg with programSize := 0 } : Config).wf := by decide
theorem test_wf_config_program_too_big : ¬ ({ State.reset.cfg with programSize := 2 ^ 31 + 1 } : Config).wf := by decide
theorem test_wf_config_program_biggest : ({ State.reset.cfg with programSize := 2 ^ 31 } : Config).wf := by decide
theorem test_wf_config_no_stack : ¬ ({ State.reset.cfg with stackCapacity := 0 } : Config).wf := by decide
theorem test_wf_memory_unsorted : ¬ Memory.wf [(3, 1), (2, 1)] := by decide
theorem test_wf_memory_lists_unlisted_value : ¬ Memory.wf [(3, 0)] := by decide

/-! ### Decoding: the words of R63, bit by bit -/

theorem test_decode_break : decodeWords specOpcodeMap [0b00000] = ⟨.brk .breakInsn, 1⟩ := by decide
theorem test_decode_nop : decodeWords specOpcodeMap [0b00001] = ⟨.nop, 1⟩ := by decide
theorem test_decode_halt : decodeWords specOpcodeMap [0b00010] = ⟨.halt, 1⟩ := by decide
theorem test_decode_push : decodeWords specOpcodeMap [0b00011, 0x80000000] = ⟨.push 0x80000000, 2⟩ := by decide
theorem test_decode_print : decodeWords specOpcodeMap [0b00100] = ⟨.print, 1⟩ := by decide
theorem test_decode_jne : decodeWords specOpcodeMap [0b00101, 0xFFFFFFF8] = ⟨.jne (BitVec.ofInt 32 (-8)), 2⟩ := by decide
theorem test_decode_swap : decodeWords specOpcodeMap [0b00110] = ⟨.swap, 1⟩ := by decide
theorem test_decode_dup : decodeWords specOpcodeMap [0b00111] = ⟨.dup, 1⟩ := by decide
theorem test_decode_je : decodeWords specOpcodeMap [0b01000, 2] = ⟨.je 2, 2⟩ := by decide
theorem test_decode_inc : decodeWords specOpcodeMap [0b01001] = ⟨.inc, 1⟩ := by decide
theorem test_decode_add : decodeWords specOpcodeMap [0b01010] = ⟨.add, 1⟩ := by decide
theorem test_decode_sub : decodeWords specOpcodeMap [0b01011] = ⟨.sub, 1⟩ := by decide
theorem test_decode_mul : decodeWords specOpcodeMap [0b01100] = ⟨.mul, 1⟩ := by decide
theorem test_decode_rand : decodeWords specOpcodeMap [0b01101] = ⟨.rand, 1⟩ := by decide
theorem test_decode_dec : decodeWords specOpcodeMap [0b01110] = ⟨.dec, 1⟩ := by decide
theorem test_decode_drop : decodeWords specOpcodeMap [0b01111] = ⟨.drop, 1⟩ := by decide
theorem test_decode_over : decodeWords specOpcodeMap [0b10000] = ⟨.ovr, 1⟩ := by decide
theorem test_decode_mod : decodeWords specOpcodeMap [0b10001] = ⟨.mod, 1⟩ := by decide
theorem test_decode_jump : decodeWords specOpcodeMap [0b10010, 0xFFFFFFFE] = ⟨.jump 0xFFFFFFFE, 2⟩ := by decide
theorem test_decode_undefined_first : decodeWords specOpcodeMap [0b10011] = ⟨.brk .undefinedOpcode, 1⟩ := by decide
theorem test_decode_undefined_last : decodeWords specOpcodeMap [0xFFFFFFFF] = ⟨.brk .undefinedOpcode, 1⟩ := by decide
theorem test_decode_high_bit_selects : decodeWords specOpcodeMap [0x80000001] = ⟨.brk .undefinedOpcode, 1⟩ := by decide
theorem test_decode_truncated_jump : decodeWords specOpcodeMap [0b10010] = ⟨.brk .immOutOfBounds, 1⟩ := by decide
theorem test_decode_nothing : decodeWords specOpcodeMap [] = ⟨.brk .pcOutOfBounds, 1⟩ := by decide

/-- A 2-word row given by its opcode word alone has the operand word 0; the second word is bits 63..32. -/
theorem test_table_word_push : decodeTableWord 32 3 = some (.push 0) ∧
    decodeTableWord 64 (5 * 2 ^ 32 + 3) = some (.push 5) := by decide

theorem test_fetch_word_runs : goesOn (State.reset.withFetchWord 32 3) 2 [0] := by unfold goesOn; decide
theorem test_fetch_word_runs_in_ended_machine :
    goesOn ({ State.reset with state := .brk, cause := .modByZero, pc := 40 }.withFetchWord 32 1) 41 [] := by unfold goesOn; decide

/-- Program P2 of `spec/95_test_vectors.md` from its source lines: the image listed there, word by word. -/
theorem test_assemble_p2 :
    assemble specOpcodeMap
      [⟨none, some (.withOperand .push (.number 12))⟩, ⟨none, some (.withOperand .push (.number 1))⟩,
        ⟨none, some (.plain .swap)⟩, ⟨some "loop", some (.plain .swap)⟩, ⟨none, some (.plain .ovr)⟩,
        ⟨none, some (.plain .mul)⟩, ⟨none, some (.plain .swap)⟩, ⟨none, some (.plain .dec)⟩,
        ⟨none, some (.plain .dup)⟩, ⟨none, some (.withOperand .jne (.label "loop"))⟩, ⟨none, some (.plain .swap)⟩,
        ⟨none, some (.plain .print)⟩, ⟨none, some (.plain .halt)⟩] =
      some [3, 12, 3, 1, 6, 6, 16, 12, 6, 14, 7, 5, 0xFFFFFFF8, 6, 4, 2] := by decide

/-- R71: an operand a mnemonic does not take, a label of a `Push`, a number past 32 bits and an unknown label are refused. -/
theorem test_assemble_refuses :
    assemble specOpcodeMap [⟨none, some (.plain .push)⟩] = none ∧
    assemble specOpcodeMap [⟨none, some (.withOperand .nop (.number 1))⟩] = none ∧
    assemble specOpcodeMap [⟨some "a", some (.withOperand .push (.label "a"))⟩] = none ∧
    assemble specOpcodeMap [⟨none, some (.word (2 ^ 32))⟩] = none ∧
    assemble specOpcodeMap [⟨none, some (.withOperand .jump (.label "b"))⟩] = none := by decide

/-! ### One step of each instruction (`spec/95_test_vectors.md`, the vector named in each line) -/

-- C-1, C-2, C-3, C-5
theorem test_step_nop : goesOn (mk [1, 2] 7 [1]) 8 [2, 1] := by unfold goesOn; decide
theorem test_step_halt : view (step (mk [0] 6 [2])) = some ⟨.halted, .none, 6, [0], 1, []⟩ := by decide
theorem test_step_break : faults (mk [] 3 [0]) .breakInsn 3 [] := by unfold faults; decide
theorem test_step_undefined : faults (mk [] 0 [0xFFFFFFFF]) .undefinedOpcode 0 [] := by unfold faults; decide
-- C-6, L1-7 (its first image with PROGRAM_SIZE 16), C-7
theorem test_step_pc_out_of_bounds : faults (mk [7] 16 []) .pcOutOfBounds 16 [7] := by unfold faults; decide
theorem test_step_imm_out_of_bounds : faults (mk [0] 15 [8]) .immOutOfBounds 15 [0] := by unfold faults; decide
theorem test_step_no_budget : nextOf (step { mk [7] 0 [1] with limitEnQ := true }) =
    some { mk [7] 0 [1] with limitEnQ := true } := by decide
-- S-2, S-4
theorem test_step_push : goesOn (mk [] 0 [3, 0xFFFFFFFF]) 2 [0xFFFFFFFF] := by unfold goesOn; decide
theorem test_step_push_full : faults (mk [1, 2, 3, 4] 0 [3, 1]) .stackOverflow 0 [4, 3, 2, 1] := by unfold faults; decide
-- S-6, S-7
theorem test_step_swap_full : goesOn (mk [1, 2, 3, 4] 0 [6]) 1 [3, 4, 2, 1] := by unfold goesOn; decide
theorem test_step_swap_one : faults (mk [9] 0 [6]) .stackUnderflow 0 [] := by unfold faults; decide
-- S-10, S-11
theorem test_step_dup : goesOn (mk [1, 2, 3] 0 [7]) 1 [3, 3, 2, 1] := by unfold goesOn; decide
theorem test_step_dup_full : faults (mk [1, 2, 3, 4] 0 [7]) .stackOverflow 0 [4, 3, 2, 1] := by unfold faults; decide
-- S-14, S-15
theorem test_step_over : goesOn (mk [1, 2, 3] 0 [16]) 1 [2, 3, 2, 1] := by unfold goesOn; decide
theorem test_step_over_full : faults (mk [1, 2, 3, 4] 0 [16]) .stackOverflow 0 [4, 3, 2, 1] := by unfold faults; decide
-- S-17, S-18
theorem test_step_drop : goesOn (mk [7, 8] 0 [15]) 1 [7] := by unfold goesOn; decide
theorem test_step_drop_empty : faults (mk [] 0 [15]) .stackUnderflow 0 [] := by unfold faults; decide
-- IO-1, IO-3
theorem test_step_print : view (step (mk [5, 8] 0 [4])) = some ⟨.running, .none, 1, [5], 1, [8]⟩ := by decide
theorem test_step_print_empty : faults (mk [] 0 [4]) .stackUnderflow 0 [] := by unfold faults; decide
-- IO-4 (any draw), IO-5
theorem test_step_rand : (nextOf (step (mk [] 0 [13]))).map (fun t => (t.sp, t.pc, t.draws)) = some (0, 1, 1) := by rfl
theorem test_step_rand_full : faults (mk [1, 2, 3, 4] 0 [13]) .stackOverflow 0 [4, 3, 2, 1] := by unfold faults; rfl
-- A-2, A-3
theorem test_step_inc : goesOn (mk [0xFFFFFFFF] 0 [9]) 1 [0] := by unfold goesOn; decide
theorem test_step_inc_empty : faults (mk [] 0 [9]) .stackUnderflow 0 [] := by unfold faults; decide
-- A-4
theorem test_step_dec : goesOn (mk [0] 0 [14]) 1 [0xFFFFFFFF] := by unfold goesOn; decide
-- A-7, A-8
theorem test_step_add : goesOn (mk [0xFFFFFFFF, 1] 0 [10]) 1 [0] := by unfold goesOn; decide
theorem test_step_add_one : faults (mk [7] 0 [10]) .stackUnderflow 0 [] := by unfold faults; decide
-- A-10, A-12
theorem test_step_sub : goesOn (mk [5, 3] 0 [11]) 1 [0xFFFFFFFE] := by unfold goesOn; decide
theorem test_step_sub_high : goesOn (mk [0, 0x80000000] 0 [11]) 1 [0x80000000] := by unfold goesOn; decide
-- A-14, A-16
theorem test_step_mul : goesOn (mk [0x10000, 0x10000] 0 [12]) 1 [0] := by unfold goesOn; decide
theorem test_step_mul_low : goesOn (mk [3, 0xFFFFFFFF] 0 [12]) 1 [0xFFFFFFFD] := by unfold goesOn; decide
-- A-21, A-24
theorem test_step_mod_unsigned : goesOn (mk [2, 0xFFFFFFFF] 0 [17]) 1 [1] := by unfold goesOn; decide
theorem test_step_mod_by_zero : faults (mk [9, 0, 1] 0 [17]) .modByZero 0 [9] := by unfold faults; decide
-- B-1, B-2
theorem test_step_je_taken : goesOn (mk [0] 10 [8, 3]) 15 [] := by unfold goesOn; decide
theorem test_step_je_not_taken : goesOn (mk [5] 10 [8, 3]) 12 [] := by unfold goesOn; decide
-- B-4, B-5
theorem test_step_jne_taken : goesOn (mk [24, 11, 11] 11 [5, 0xFFFFFFF8]) 5 [11, 24] := by unfold goesOn; decide
theorem test_step_jne_not_taken : goesOn (mk [0] 10 [5, 3]) 12 [] := by unfold goesOn; decide
-- B-8, B-11 (its first step)
theorem test_step_jump : goesOn (mk [1] 10 [18, 4]) 16 [1] := by unfold goesOn; decide
theorem test_step_jump_wraps : goesOn (mk [] 0 [18, 0xFFFFFFFD]) 0xFFFFFFFF [] := by unfold goesOn; decide

/-! ### Reset and ports -/

/-- L1-2: limit 0 runs nothing. -/
theorem test_limit_zero : (State.reset.rst true 0).stDone = true ∧ (State.reset.rst true 0).stOk = true := by decide

/-- `Word -1` on `st_sp`; the codes of R23 and R171. -/
theorem test_status_ports : State.reset.stSp = 0xFFFFFFFF ∧ (State.reset.broken .modByZero).stCause = 7 ∧
    (State.reset.broken .modByZero).stState = 2 := by decide

/-! ### Witnesses: states and operands that meet the hypotheses of each obligation

Where a statement has clauses for several values of `sp`, the capacity is 4, so that `sp` takes the boundary values -1, 0, 1,
2 (`STACK_CAPACITY - 2`) and 3 (`STACK_CAPACITY - 1`). -/

theorem witness_DecodeOfEncodeIsInstruction : specOpcodeMap.wf ∧ (Instr.push 0xFFFFFFFF).wellFormed = true := by decide

theorem witness_DecodedWordsAreTheEncoding :
    decodeWords specOpcodeMap [3, 5, 9] = ⟨.push 5, 2⟩ ∧ (Instr.push 5).wellFormed = true := by decide

theorem witness_LengthIsTwoForImmediateOpcodes : ∀ op, specOpcodeMap.word op ≠ 19 := by intro op; cases op <;> decide

theorem witness_UndefinedWordEndsRunInBreak :
    19 ≤ (19 : Word).toNat ∧ (mk [1] 15 [19]).cfg.opcodes = specOpcodeMap ∧ (mk [1] 15 [19]).canStep = true ∧
      (mk [1] 15 [19]).HoldsAtPc [19] := by unfold State.HoldsAtPc; decide

theorem witness_LabelDisplacementLandsOnTarget :
    (Opcode.jne ∈ [Opcode.je, .jne, .jump] ∧ [("loop", 5)].lookup "loop" = some 5) ∧
      ((mk [] 11 [18, 0xFFFFFFF8]).canStep = true ∧ (0xFFFFFFF8 : Word) = 5 - ((mk [] 11 [18, 0xFFFFFFF8]).pc + 2) ∧
        (mk [] 11 [18, 0xFFFFFFF8]).fetchDecode = ⟨.jump 0xFFFFFFF8, 2⟩) ∧
      ((mk [0] 11 [8, 0xFFFFFFF8]).fetchDecode = ⟨.je 0xFFFFFFF8, 2⟩ ∧
        (mk [0] 11 [8, 0xFFFFFFF8]).entry (mk [0] 11 [8, 0xFFFFFFF8]).sp = 0) ∧
      (mk [1] 11 [5, 0xFFFFFFF8]).fetchDecode = ⟨.jne 0xFFFFFFF8, 2⟩ ∧
        (mk [1] 11 [5, 0xFFFFFFF8]).entry (mk [1] 11 [5, 0xFFFFFFF8]).sp ≠ 0 := by decide

theorem witness_AssembledLinesAreTheEncodings : ∀ i ∈ [Instr.push 5, .brk .breakInsn], i.wellFormed = true := by decide

theorem witness_StepRunsTheDecodedInstruction :
    (mk [] 14 [3, 5]).cfg.opcodes.wf ∧ (Instr.push 5).wellFormed = true ∧ (mk [] 14 [3, 5]).canStep = true ∧
      (mk [] 14 [3, 5]).HoldsAtPc (encode (mk [] 14 [3, 5]).cfg.opcodes (.push 5)) ∧
      (nextOf (exec (.push 5) { mk [] 14 [3, 5] with outPort := none })).isSome = true := by
  unfold State.HoldsAtPc; decide

/-- The fault clause: only with `sp` outside its range. -/
theorem witness_StepRunsTheDecodedInstruction_fault :
    exec .drop { mk [] 0 [15] with sp := 4 } = .fault .stackEntryAbsent := by rfl

theorem witness_NoStepWithoutBudgetOrRunning :
    ({ mk [] 0 [] with limitEnQ := true, steps := 3, stepLimitQ := 3 }).canStep = false := by decide

theorem witness_FetchPastEndEndsRun :
    (mk [] 16 []).canStep = true ∧ (mk [] 16 []).cfg.programSize ≤ (mk [] 16 []).pc.toNat := by decide

theorem witness_TruncatedInstructionEndsRun :
    (mk [] 15 [8]).cfg.opcodes.wf ∧ (mk [] 15 [8]).canStep = true ∧
      (mk [] 15 [8]).pc.toNat + 1 = (mk [] 15 [8]).cfg.programSize ∧
      (mk [] 15 [8]).progRead (mk [] 15 [8]).pc.toNat = (mk [] 15 [8]).cfg.opcodes.word .je ∧
      Opcode.je ∈ [Opcode.push, .je, .jne, .jump] := by decide

theorem witness_StepReadsOpcodeThenImmediate :
    (mk [] 14 [18]).canStep = true ∧ (mk [] 14 [18]).cfg.opcodes.wf ∧
      (mk [] 14 [18]).progRead (mk [] 14 [18]).pc.toNat = (mk [] 14 [18]).cfg.opcodes.word .jump := by decide

theorem witness_StepReadsOpcodeThenImmediate_undefined :
    (mk [] 15 [19]).canStep = true ∧
      ∀ op, (mk [] 15 [19]).progRead (mk [] 15 [19]).pc.toNat ≠ (mk [] 15 [19]).cfg.opcodes.word op :=
  ⟨by decide, by intro op; cases op <;> decide⟩

theorem witness_StepSeesOnlyTheWordsItReads :
    (∀ a ∈ (mk [] 0 [1]).issuedReads, Memory.read [(0, 1), (5, 9)] a = (mk [] 0 [1]).program.read a) ∧
      ∃ t, step (mk [] 0 [1]) = .next t := ⟨by decide, _, rfl⟩

theorem witness_PushThenPopGivesTheValueBack :
    (-1 ≤ (mk [] 0 []).sp ∧ (mk [] 0 []).sp + 1 < (mk [] 0 []).cfg.stackCapacity) ∧
      -1 ≤ (mk [1, 2, 3] 0 []).sp ∧ (mk [1, 2, 3] 0 []).sp + 1 < (mk [1, 2, 3] 0 []).cfg.stackCapacity := by decide

theorem witness_EqualReadsMeanEqualMemories :
    Memory.wf [(3, 7)] ∧ (Memory.write [] 3 7).wf ∧ ∀ a, Memory.read [(3, 7)] a = (Memory.write [] 3 7).read a :=
  ⟨by decide, by decide, fun _ => rfl⟩

theorem witness_LoadedImageIsInTheStore :
    (List.replicate 16 (1 : Word)).length ≤ State.reset.cfg.programSize := by decide

theorem witness_NopOnlyAdvances : (mk [] 15 [1]).canStep = true ∧ (mk [] 15 [1]).fetchDecode = ⟨.nop, 1⟩ := by decide

theorem witness_HaltEndsRunInSuccess : (mk [] 15 [2]).canStep = true ∧ (mk [] 15 [2]).fetchDecode = ⟨.halt, 1⟩ := by decide

theorem witness_BreakRecordsItsCause :
    (mk [] 15 [0]).canStep = true ∧ (mk [] 15 [0]).fetchDecode = ⟨.brk .breakInsn, 1⟩ ∧
      (mk [] 16 []).canStep = true ∧ (mk [] 16 []).fetchDecode = ⟨.brk .pcOutOfBounds, 1⟩ := by decide

/-- The clauses of the statements about `Push` and `Rand`: room for the last entry, and none. -/
theorem witness_PushPushesItsImmediate :
    ((mk [1, 2, 3] 0 []).SpInRange ∧ (mk [1, 2, 3] 0 []).sp ≤ (mk [1, 2, 3] 0 []).cfg.stackCapacity - 2) ∧
      (mk [1, 2, 3, 4] 0 []).SpInRange ∧ (mk [1, 2, 3, 4] 0 []).sp = (mk [1, 2, 3, 4] 0 []).cfg.stackCapacity - 1 := by
  decide

theorem witness_RandPushesTheDraw :
    ((mk [] 0 []).SpInRange ∧ (mk [] 0 []).sp ≤ (mk [] 0 []).cfg.stackCapacity - 2) ∧
      (mk [1, 2, 3, 4] 0 []).SpInRange ∧ (mk [1, 2, 3, 4] 0 []).sp = (mk [1, 2, 3, 4] 0 []).cfg.stackCapacity - 1 := by
  decide

/-- The clauses of the statements about two operands and one or two results (`Swap`, `Add`, `Sub`, `Mul`): two entries, one,
none. -/
theorem witness_SwapExchangesTopTwo :
    ((mk [1, 2] 0 []).SpInRange ∧ 1 ≤ (mk [1, 2] 0 []).sp) ∧ ((mk [1] 0 []).SpInRange ∧ (mk [1] 0 []).sp = 0) ∧
      (mk [] 0 []).SpInRange ∧ (mk [] 0 []).sp = -1 := by decide

theorem witness_AddReplacesTopTwoWithSum :
    ((mk [1, 2] 0 []).SpInRange ∧ 1 ≤ (mk [1, 2] 0 []).sp) ∧ ((mk [1] 0 []).SpInRange ∧ (mk [1] 0 []).sp = 0) ∧
      (mk [] 0 []).SpInRange ∧ (mk [] 0 []).sp = -1 := by decide

theorem witness_SubReplacesTopTwoWithTopMinusSecond :
    ((mk [5, 3] 0 []).SpInRange ∧ 1 ≤ (mk [5, 3] 0 []).sp) ∧ ((mk [1] 0 []).SpInRange ∧ (mk [1] 0 []).sp = 0) ∧
      (mk [] 0 []).SpInRange ∧ (mk [] 0 []).sp = -1 := by decide

theorem witness_MulReplacesTopTwoWithLowProduct :
    ((mk [6, 7] 0 []).SpInRange ∧ 1 ≤ (mk [6, 7] 0 []).sp) ∧ ((mk [1] 0 []).SpInRange ∧ (mk [1] 0 []).sp = 0) ∧
      (mk [] 0 []).SpInRange ∧ (mk [] 0 []).sp = -1 := by decide

theorem witness_ModReplacesTopTwoWithRemainder :
    ((mk [3, 7] 0 []).SpInRange ∧ 1 ≤ (mk [3, 7] 0 []).sp ∧ (mk [3, 7] 0 []).entry ((mk [3, 7] 0 []).sp - 1) ≠ 0) ∧
      ((mk [0, 1] 0 []).SpInRange ∧ 1 ≤ (mk [0, 1] 0 []).sp ∧ (mk [0, 1] 0 []).entry ((mk [0, 1] 0 []).sp - 1) = 0) ∧
      ((mk [1] 0 []).SpInRange ∧ (mk [1] 0 []).sp = 0) ∧ (mk [] 0 []).SpInRange ∧ (mk [] 0 []).sp = -1 := by decide

theorem witness_DupDuplicatesTheTop :
    ((mk [1] 0 []).SpInRange ∧ 0 ≤ (mk [1] 0 []).sp ∧ (mk [1] 0 []).sp ≤ (mk [1] 0 []).cfg.stackCapacity - 2) ∧
      ((mk [1, 2, 3, 4] 0 []).SpInRange ∧ 0 ≤ (mk [1, 2, 3, 4] 0 []).sp ∧
        (mk [1, 2, 3, 4] 0 []).sp = (mk [1, 2, 3, 4] 0 []).cfg.stackCapacity - 1) ∧
      (mk [] 0 []).SpInRange ∧ (mk [] 0 []).sp = -1 := by decide

theorem witness_OverCopiesTheSecond :
    ((mk [1, 2] 0 []).SpInRange ∧ 1 ≤ (mk [1, 2] 0 []).sp ∧ (mk [1, 2] 0 []).sp ≤ (mk [1, 2] 0 []).cfg.stackCapacity - 2) ∧
      ((mk [1, 2, 3, 4] 0 []).SpInRange ∧ 1 ≤ (mk [1, 2, 3, 4] 0 []).sp ∧
        (mk [1, 2, 3, 4] 0 []).sp = (mk [1, 2, 3, 4] 0 []).cfg.stackCapacity - 1) ∧
      ((mk [1] 0 []).SpInRange ∧ (mk [1] 0 []).sp = 0) ∧ (mk [] 0 []).SpInRange ∧ (mk [] 0 []).sp = -1 := by decide

/-- The clauses of the statements about one operand (`Drop`, `Print`, `Inc`, `Dec`): one entry, none. -/
theorem witness_DropDiscardsTheTop :
    ((mk [7] 0 []).SpInRange ∧ 0 ≤ (mk [7] 0 []).sp) ∧ (mk [] 0 []).SpInRange ∧ (mk [] 0 []).sp = -1 := by decide

theorem witness_PrintEmitsTheTop :
    ((mk [8] 0 []).SpInRange ∧ 0 ≤ (mk [8] 0 []).sp) ∧ (mk [] 0 []).SpInRange ∧ (mk [] 0 []).sp = -1 := by decide

theorem witness_IncAddsOneToTheTop :
    ((mk [0xFFFFFFFF] 0 []).SpInRange ∧ 0 ≤ (mk [0xFFFFFFFF] 0 []).sp) ∧
      (mk [] 0 []).SpInRange ∧ (mk [] 0 []).sp = -1 := by decide

theorem witness_DecSubtractsOneFromTheTop :
    ((mk [0] 0 []).SpInRange ∧ 0 ≤ (mk [0] 0 []).sp) ∧ (mk [] 0 []).SpInRange ∧ (mk [] 0 []).sp = -1 := by decide

theorem witness_JeBranchesOnZero :
    ((mk [0] 0 []).SpInRange ∧ 0 ≤ (mk [0] 0 []).sp ∧ (mk [0] 0 []).entry (mk [0] 0 []).sp = 0) ∧
      ((mk [5] 0 []).SpInRange ∧ 0 ≤ (mk [5] 0 []).sp ∧ (mk [5] 0 []).entry (mk [5] 0 []).sp ≠ 0) ∧
      (mk [] 0 []).SpInRange ∧ (mk [] 0 []).sp = -1 := by decide

theorem witness_JneBranchesOnNonZero :
    ((mk [0x80000000] 0 []).SpInRange ∧ 0 ≤ (mk [0x80000000] 0 []).sp ∧
        (mk [0x80000000] 0 []).entry (mk [0x80000000] 0 []).sp ≠ 0) ∧
      ((mk [0] 0 []).SpInRange ∧ 0 ≤ (mk [0] 0 []).sp ∧ (mk [0] 0 []).entry (mk [0] 0 []).sp = 0) ∧
      (mk [] 0 []).SpInRange ∧ (mk [] 0 []).sp = -1 := by decide

theorem witness_JumpBranchesAlways :
    (mk [] 14 [18, 0xFFFFFFFE]).canStep = true ∧ (mk [] 14 [18, 0xFFFFFFFE]).fetchDecode = ⟨.jump 0xFFFFFFFE, 2⟩ := by
  decide

theorem witness_BranchTargetIsPcPlusTwoPlusDisplacement :
    ((mk [] 0 [18, 0xFFFFFFFD]).canStep = true ∧ (mk [] 0 [18, 0xFFFFFFFD]).fetchDecode = ⟨.jump 0xFFFFFFFD, 2⟩) ∧
      ((mk [0] 10 [8, 3]).canStep = true ∧ 0 ≤ (mk [0] 10 [8, 3]).sp ∧
        (mk [0] 10 [8, 3]).sp < (mk [0] 10 [8, 3]).cfg.stackCapacity ∧
        (mk [0] 10 [8, 3]).fetchDecode = ⟨.je 3, 2⟩ ∧ (mk [0] 10 [8, 3]).entry (mk [0] 10 [8, 3]).sp = 0) ∧
      ((mk [0] 10 [5, 3]).canStep = true ∧ 0 ≤ (mk [0] 10 [5, 3]).sp ∧
        (mk [0] 10 [5, 3]).sp < (mk [0] 10 [5, 3]).cfg.stackCapacity ∧
        (mk [0] 10 [5, 3]).fetchDecode = ⟨.jne 3, 2⟩ ∧ (mk [0] 10 [5, 3]).entry (mk [0] 10 [5, 3]).sp = 0) ∧
      (mk [9] 10 [8, 3]).entry (mk [9] 10 [8, 3]).sp ≠ 0 ∧ (mk [9] 10 [5, 3]).entry (mk [9] 10 [5, 3]).sp ≠ 0 := by decide

/-- The three kinds of taken branch; the first to the nearest bad target `PROGRAM_SIZE`, the second to one that wraps. -/
theorem witness_BadBranchTargetFaultsAtNextFetch :
    ((mk [] 0 [18, 14]).Inv ∧ (mk [] 0 [18, 14]).canStep = true ∧ (mk [] 0 [18, 14]).fetchDecode = ⟨.jump 14, 2⟩ ∧
        (2 + (14 : Word)).toNat = (mk [] 0 [18, 14]).cfg.programSize) ∧
      ((mk [0] 0 [8, 0xFFFFFFFD]).Inv ∧ (mk [0] 0 [8, 0xFFFFFFFD]).canStep = true ∧
        (mk [0] 0 [8, 0xFFFFFFFD]).fetchDecode = ⟨.je 0xFFFFFFFD, 2⟩ ∧ 0 ≤ (mk [0] 0 [8, 0xFFFFFFFD]).sp ∧
        (mk [0] 0 [8, 0xFFFFFFFD]).entry (mk [0] 0 [8, 0xFFFFFFFD]).sp = 0 ∧
        (0 : Int) + 2 + (0xFFFFFFFD : Word).toInt < 0) ∧
      (mk [1] 0 [5, 0x7FFFFFFF]).Inv ∧ (mk [1] 0 [5, 0x7FFFFFFF]).canStep = true ∧
        (mk [1] 0 [5, 0x7FFFFFFF]).fetchDecode = ⟨.jne 0x7FFFFFFF, 2⟩ ∧ 0 ≤ (mk [1] 0 [5, 0x7FFFFFFF]).sp ∧
        (mk [1] 0 [5, 0x7FFFFFFF]).entry (mk [1] 0 [5, 0x7FFFFFFF]).sp ≠ 0 := by
  refine ⟨?_, ?_, ?_⟩ <;> decide

/-- Each clause of the stack-effect table, at the depth where it begins. -/
theorem witness_StackEffectTable :
    ((mk [1, 2] 0 []).SpInRange ∧ (mk [1, 2] 0 []).Succeeds .ovr) ∧
      ((mk [1] 0 []).SpInRange ∧ (mk [1] 0 []).Underflows .ovr) ∧
      ((mk [1, 2, 3, 4] 0 []).SpInRange ∧ (mk [1, 2, 3, 4] 0 []).Overflows .ovr) ∧
      (mk [0, 1] 0 []).SpInRange ∧ (mk [0, 1] 0 []).DividesByZero .mod :=
  ⟨⟨by decide, nofun, by unfold State.Underflows; decide, by unfold State.Overflows; decide, fun h => nomatch h.1⟩,
    ⟨by decide, by unfold State.Underflows; decide⟩, ⟨by decide, by unfold State.Overflows; decide⟩, by decide, rfl,
    by decide, by decide⟩

/-- Each row of the transition relation: the seven causes, the `Halt`, and a step that goes on. -/
theorem witness_TransitionRelation :
    ((mk [] 15 [0]).Inv ∧ (mk [] 15 [0]).canStep = true ∧ (mk [] 15 [0]).Raises .breakInsn) ∧
      ((mk [] 15 [19]).Inv ∧ (mk [] 15 [19]).canStep = true ∧ (mk [] 15 [19]).Raises .undefinedOpcode) ∧
      ((mk [] 16 []).Inv ∧ (mk [] 16 []).canStep = true ∧ (mk [] 16 []).Raises .pcOutOfBounds) ∧
      ((mk [] 15 [18]).Inv ∧ (mk [] 15 [18]).canStep = true ∧ (mk [] 15 [18]).Raises .immOutOfBounds) ∧
      ((mk [1, 2, 3, 4] 15 [7]).Inv ∧ (mk [1, 2, 3, 4] 15 [7]).canStep = true ∧
        (mk [1, 2, 3, 4] 15 [7]).Raises .stackOverflow) ∧
      ((mk [] 15 [15]).Inv ∧ (mk [] 15 [15]).canStep = true ∧ (mk [] 15 [15]).Raises .stackUnderflow) ∧
      ((mk [0, 1] 15 [17]).Inv ∧ (mk [0, 1] 15 [17]).canStep = true ∧ (mk [0, 1] 15 [17]).Raises .modByZero) ∧
      ((mk [] 15 [2]).Inv ∧ (mk [] 15 [2]).canStep = true ∧ (mk [] 15 [2]).fetchDecode.instr = .halt) ∧
      (mk [] 15 [1]).Inv ∧ (mk [] 15 [1]).canStep = true ∧ (mk [] 15 [1]).fetchDecode.instr = .nop := by
  refine ⟨⟨by decide, by decide, ?_⟩, ⟨by decide, by decide, by decide, ?_⟩, ⟨by decide, by decide, ?_⟩,
    ⟨by decide, by decide, ?_⟩, ⟨by decide, by decide, ?_⟩, ⟨by decide, by decide, ?_⟩,
    ⟨by decide, by decide, rfl, by decide, by decide⟩, by decide, by decide⟩
  · unfold State.Raises; decide
  · intro op; cases op <;> decide
  · unfold State.Raises; decide
  · exact ⟨by decide, .jump, by decide, by decide⟩
  · unfold State.Raises State.Overflows; decide
  · unfold State.Raises State.Underflows; decide

theorem witness_TerminalStatesAreFinal :
    ((mk [] 0 []).haltedNow.state ≠ .running ∧ ∃ t, step (mk [] 0 []).haltedNow = .next t) ∧
      (∃ t, step (mk [] 0 [2]) = .next t ∧ (mk [] 0 [2]).state = .running ∧ t.state = .halted) ∧
      ∃ t, step (mk [] 0 [0]) = .next t ∧ (mk [] 0 [0]).state = .running ∧ t.state = .brk :=
  ⟨⟨by decide, _, rfl⟩, ⟨_, rfl, rfl, rfl⟩, _, rfl, rfl, rfl⟩

theorem witness_EveryStepIsCountedOnce :
    (mk [] 0 [15]).canStep = true ∧ ∃ t, step (mk [] 0 [15]) = .next t ∧ t.state = .brk := ⟨by decide, _, rfl, rfl⟩

theorem witness_PcAdvancesOnlyWhileRunning :
    ((mk [] 0 [15]).canStep = true ∧ ∃ t, step (mk [] 0 [15]) = .next t ∧ t.state ≠ .running) ∧
      (mk [0] 10 [8, 3]).canStep = true ∧ ∃ t, step (mk [0] 10 [8, 3]) = .next t ∧ t.state = .running :=
  ⟨⟨by decide, _, rfl, by decide⟩, by decide, _, rfl, by decide⟩

theorem witness_StoreAndLatchNeverChange : ∃ t, step (mk [] 0 [3, 5]) = .next t := ⟨_, rfl⟩

theorem witness_OnlyPrintEmits :
    (∃ t, step (mk [8] 0 [4]) = .next t ∧ t.outPort = some 8) ∧
      ∃ t, step { mk [8] 0 [4] with limitEnQ := true, outPort := some 8 } = .next t ∧ t.outPort = none :=
  ⟨⟨_, rfl, rfl⟩, _, rfl, rfl⟩

theorem witness_OnlyRandSeesTheRandomSource :
    ((mk [8] 0 [7]).canStep = true → (mk [8] 0 [7]).fetchDecode.instr ≠ .rand) ∧ ∃ t, step (mk [8] 0 [7]) = .next t :=
  ⟨by decide, _, rfl⟩

theorem witness_ResetMeetsInvariant : (mk [1, 2, 3, 4] 15 [1]).Inv := by decide

theorem witness_StepKeepsInvariant :
    ({ mk [1, 2, 3] 14 [3, 5] with limitEnQ := true, stepLimitQ := 1 }).Inv ∧
      ∃ t, step { mk [1, 2, 3] 14 [3, 5] with limitEnQ := true, stepLimitQ := 1 } = .next t := ⟨by decide, _, rfl⟩

theorem witness_InvariantMachineAlwaysSteps : (mk [] 16 []).Inv := by decide

/-- P6: `Jump -2` at 0 under a limit. -/
theorem witness_StepLimitEndsEveryRun :
    ((mk [] 0 [18, 0xFFFFFFFE]).rst true 5).Inv ∧ ((mk [] 0 [18, 0xFFFFFFFE]).rst true 5).limitEnQ = true := by decide

theorem witness_BudgetCutsTheUnlimitedRun : (mk [] 0 [18, 0xFFFFFFFE]).Inv ∧ 2 ^ 64 - 1 < 2 ^ 64 := by decide

theorem witness_EntriesAboveTopAreUnobservable :
    (mk [5] 0 [3, 9]).Inv ∧ ({ mk [5] 0 [3, 9] with stack := [(0, 5), (1, 77)] }).Inv ∧
      (mk [5] 0 [3, 9]).SameBelowTop { mk [5] 0 [3, 9] with stack := [(0, 5), (1, 77)] } := by
  refine ⟨by decide, by decide, rfl, fun j hj => ?_⟩
  have hj0 : j = 0 := by
    have : (mk [5] 0 [3, 9]).sp = 0 := by decide
    omega
  subst hj0
  decide

theorem witness_DoneMeansNoStepCanStart :
    (mk [] 0 [18, 0xFFFFFFFE]).state = .running ∧ (mk [] 0 [18, 0xFFFFFFFE]).limitEnQ = false ∧
      (mk [] 0 [18, 0xFFFFFFFE]).fetchDecode = ⟨.jump (BitVec.ofInt 32 (-2)), 2⟩ := by decide

theorem witness_EndedRunFailsExactlyInBreak :
    (State.reset.rst true 0).Inv ∧ (State.reset.rst true 0).stDone = true ∧
      (State.reset.broken .modByZero).Inv ∧ (State.reset.broken .modByZero).stDone = true := by decide

/-- A budget of one step used up by a `Print`, its pulse still shown: the idle step ends it. -/
theorem test_idle_step_ends_pulse :
    nextOf (step { mk [5] 1 [] with limitEnQ := true, steps := 1, stepLimitQ := 1, outPort := some 8, output := [8] }) =
      some { mk [5] 1 [] with limitEnQ := true, steps := 1, stepLimitQ := 1, output := [8] } := by decide

theorem witness_EndedRunIsIdleAndEmitsNothing :
    ({ mk [5] 1 [] with limitEnQ := true, steps := 1, stepLimitQ := 1, outPort := some 8, output := [8] }).stDone = true := by
  decide

theorem witness_StatusPortsShowTheState : -1 ≤ State.reset.sp ∧ State.reset.sp < 2 ^ 31 := by decide

theorem witness_SnapshotShowsTheStack :
    (-1 ≤ (mk [5] 0 []).sp ∧ ((0 : Word).toNat : Int) ≤ (mk [5] 0 []).sp ∧ (mk [5] 0 []).sp < (1 : Word).toNat) ∧
      (mk [5] 0 []).contents.length = 1 := by decide

end Sys2Proof.Tests
end

section
/-! PROOFS. The statements of `spec/10_state.md`: what a step leaves unchanged, what it does to `state` and `cause`, the
invariant of R35, and the codes of the status ports. -/

namespace Sys2Proof.Machine

variable {s t : State} {i : Instr}

/-! ### What no instruction writes (R27, R29, R53) -/

/-- `t` has the parameters, the program store, the limit latch and the step count of `s`. -/
def State.SameFixed (s t : State) : Prop :=
  t.cfg = s.cfg ∧ t.program = s.program ∧ t.limitEnQ = s.limitEnQ ∧ t.stepLimitQ = s.stepLimitQ ∧ t.steps = s.steps

theorem State.sameFixed_closed (s : State) : Closed s.SameFixed where
  popped _ h _ _ := h
  pushed _ _ h _ _ := h
  drawn _ h := h
  broken _ _ h _ := h

/-- The count is the sequencer's (R83), not the instruction's. -/
theorem exec_sameFixed (h : exec i s = .next t) : s.SameFixed t :=
  exec_keeps s.sameFixed_closed i (fun _ _ h => h) (fun _ _ _ h => h) (fun _ _ _ h => h) s t ⟨rfl, rfl, rfl, rfl, rfl⟩ h

/-- Settles O43: no instruction writes them (`exec_sameFixed`), and neither does what a step does around its instruction. -/
theorem storeAndLatchNeverChange : Obligations.StoreAndLatchNeverChange := by
  intro s t h
  obtain ⟨-, rfl⟩ | ⟨-, u, hu, rfl⟩ := step_cases h
  · exact ⟨rfl, rfl, rfl, rfl⟩
  · obtain ⟨hcfg, hprogram, hlimit, hbudget, -⟩ := exec_sameFixed hu
    simp [hprogram, hlimit, hbudget, hcfg]

/-! ### What an instruction does to `state` and `cause` (R24, R85) -/

/-- Still `Running`, no fault recorded since `cause` was `c`; or in `Break`, with a fault recorded. -/
def State.RunningOrFaulted (c : Cause) (s : State) : Prop :=
  (s.state = .running ∧ s.cause = c) ∨ (s.state = .brk ∧ s.cause ≠ .none)

theorem State.runningOrFaulted_closed (c : Cause) : Closed (State.RunningOrFaulted c) where
  popped _ h _ _ := h
  pushed _ _ h _ _ := h
  drawn _ h := h
  broken _ _ _ hc := .inr ⟨rfl, hc⟩

/-- Everything an instruction can do to `state` and `cause` of a `Running` machine. -/
theorem exec_state_cases (hrun : s.state = .running) (h : exec i s = .next t) :
    t.RunningOrFaulted s.cause ∨ (i = .halt ∧ t = s.haltedNow) := by
  by_cases hi : i = .halt
  · subst hi
    exact .inr ⟨rfl, (done_eq_next.mp h).symm⟩
  · exact .inl (exec_keeps (State.runningOrFaulted_closed s.cause) i (fun hhalt => absurd hhalt hi)
      (fun _ _ _ h => h) (fun _ _ _ h => h) s t (.inl ⟨hrun, rfl⟩) h)

/-- The same for a whole step of a `Running` machine; one whose budget is used up stays `Running`. -/
theorem step_state_cases (hrun : s.state = .running) (h : step s = .next t) :
    t.RunningOrFaulted s.cause ∨ (s.fetchDecode.instr = .halt ∧ t.state = .halted ∧ t.cause = s.cause) := by
  obtain ⟨-, rfl⟩ | ⟨-, u, hu, rfl⟩ := step_cases h
  · exact .inl (.inl ⟨hrun, rfl⟩)
  · obtain hu | ⟨hhalt, rfl⟩ := exec_state_cases (by simpa using hrun) hu
    · exact .inl (by simpa [State.RunningOrFaulted] using hu)
    · exact .inr ⟨hhalt, by simp, by simp⟩

theorem step_of_ended (hended : s.state ≠ .running) : step s = .next s.begun :=
  step_of_idle (by simp [State.canStep, hended])

/-- Settles O40: an ended machine is idle, and the step of a `Running` one has the three ends of `step_state_cases`. -/
theorem terminalStatesAreFinal : Obligations.TerminalStatesAreFinal := by
  intro s t h
  refine ⟨fun hended => ?_, fun hrun ht => ?_, fun hrun ht => ?_⟩
  · rw [step_of_ended hended] at h
    cases h
    rfl
  · obtain (⟨ht', -⟩ | ⟨ht', -⟩) | ⟨hhalt, -⟩ := step_state_cases hrun h
    · simp [ht] at ht'
    · simp [ht] at ht'
    · exact hhalt
  · obtain (⟨ht', -⟩ | ⟨-, hcause⟩) | ⟨-, ht', -⟩ := step_state_cases hrun h
    · simp [ht] at ht'
    · exact hcause
    · simp [ht] at ht'

/-! ### The invariant (R35), conjunct by conjunct -/

/-- The conjuncts of the invariant about the operand stack. -/
def State.StackOk (s : State) : Prop := s.SpInRange ∧ s.stack.wf ∧ s.stack.below s.cfg.stackCapacity

theorem State.stackOk_closed : Closed State.StackOk where
  popped s h hlow _ := by
    obtain ⟨⟨-, hhigh⟩, hwf, hbelow⟩ := h
    exact ⟨⟨by simp; omega, by simp; omega⟩, hwf, hbelow⟩
  pushed s v h hlow hroom := by
    obtain ⟨-, hwf, hbelow⟩ := h
    exact ⟨⟨by simp; omega, hroom⟩, Memory.write_wf hwf, Memory.write_below hbelow (by simp; omega)⟩
  drawn _ h := h
  broken _ _ h _ := h

theorem exec_stackOk (hs : s.StackOk) (h : exec i s = .next t) : t.StackOk :=
  exec_keeps State.stackOk_closed i (fun _ _ h => h) (fun _ _ _ h => h) (fun _ _ _ h => h) s t hs h

theorem State.outPort_none_closed : Closed fun s => s.outPort = none where
  popped _ h _ _ := h
  pushed _ _ h _ _ := h
  drawn _ h := h
  broken _ _ h _ := h

/-- Only `Print` asserts `out_valid`. -/
theorem exec_outPort_none (hi : i ≠ .print) (hs : s.outPort = none) (h : exec i s = .next t) : t.outPort = none :=
  exec_keeps State.outPort_none_closed i (fun _ _ h => h) (fun hprint => absurd hprint hi) (fun _ _ _ h => h) s t hs h

/-- Everything a `Print` can do. -/
theorem execPrint_cases (h : exec .print s = .next t) :
    (s.sp < 0 ∧ t = s.broken .stackUnderflow) ∨
      (0 ≤ s.sp ∧ s.sp < s.cfg.stackCapacity ∧ t = s.popped.emitted (s.entry s.sp)) := by
  obtain ⟨hempty, rfl⟩ | ⟨hlow, hhigh, h⟩ := pop_cases (kv := fun v s => emit v s done) h
  · exact .inl ⟨hempty, rfl⟩
  · exact .inr ⟨hlow, hhigh, (done_eq_next.mp h).symm⟩

/-- An event is the last thing a `Print` does, so it leaves a `Running` machine and is the newest of the sequence. -/
theorem exec_outPortMatchesOutput (hrun : s.state = .running) (hs : s.outPort = none) (h : exec i s = .next t) :
    t.OutPortMatchesOutput := by
  by_cases hi : i = .print
  · subst hi
    obtain ⟨-, rfl⟩ | ⟨-, -, rfl⟩ := execPrint_cases h
    · exact .inl hs
    · exact .inr ⟨hrun, by simp⟩
  · exact .inl (exec_outPort_none hi hs h)

theorem State.RunningOrFaulted.causeMatchesState (h : s.RunningOrFaulted .none) : s.CauseMatchesState := by
  obtain ⟨hstate, hcause⟩ | ⟨hstate, hcause⟩ := h <;> simp [State.CauseMatchesState, hstate, hcause]

theorem step_causeMatchesState (hs : s.CauseMatchesState) (h : step s = .next t) : t.CauseMatchesState := by
  by_cases hrun : s.state = .running
  · have hnone : s.cause = .none := hs.mpr (by simp [hrun])
    obtain ht | ⟨-, hstate, hcause⟩ := step_state_cases hrun h
    · exact (hnone ▸ ht).causeMatchesState
    · simp [State.CauseMatchesState, hstate, hcause, hnone]
  · rw [step_of_ended hrun] at h
    cases h
    exact hs

/-- The gate of R80 leaves room for the count of the step it lets through. -/
theorem State.counted_withinBudget (h : s.canStep = true) : s.counted.WithinBudget := by
  intro (hlimit : s.limitEnQ = true)
  obtain ⟨-, hfree | hleft⟩ := State.canStep_iff.mp h
  · simp [hlimit] at hfree
  · show (s.steps + 1).toNat ≤ s.stepLimitQ.toNat
    bv_omega

/-- Settles O47: an idle step writes the port only; for any other, each conjunct is kept by the instruction and then by the
end of the step. -/
theorem stepKeepsInvariant : Obligations.StepKeepsInvariant := by
  intro s t hinv h
  obtain ⟨hcfg, hsp, ⟨hpwf, hpbelow, hswf, hsbelow⟩, hcause, hbudget, -⟩ := hinv
  have hcause : t.CauseMatchesState := step_causeMatchesState hcause h
  obtain ⟨-, rfl⟩ | ⟨hcan, u, hu, rfl⟩ := step_cases h
  · exact ⟨hcfg, hsp, ⟨hpwf, hpbelow, hswf, hsbelow⟩, hcause, hbudget, .inl rfl⟩
  · obtain ⟨hucfg, huprogram, hulimit, hubudget, husteps⟩ := exec_sameFixed hu
    obtain ⟨husp, huwf, hubelow⟩ : u.StackOk := exec_stackOk (s := s.begun) ⟨hsp, hswf, hsbelow⟩ hu
    have hport : u.OutPortMatchesOutput :=
      exec_outPortMatchesOutput (s := s.begun) (State.canStep_iff.mp hcan).1 rfl hu
    refine ⟨?_, ?_, ⟨?_, ?_, ?_, ?_⟩, hcause, ?_, ?_⟩
    · simpa [hucfg] using hcfg
    · simpa [State.SpInRange] using husp
    · simpa [huprogram] using hpwf
    · simpa [huprogram, hucfg] using hpbelow
    · simpa using huwf
    · simpa using hubelow
    · simpa [State.WithinBudget, hulimit, hubudget, husteps] using State.counted_withinBudget hcan
    · simpa [State.OutPortMatchesOutput] using hport

/-! ### The status ports (R23, R34, R171) -/

/-- The codes of R171 are distinct. -/
theorem causeCode_inj {c d : Cause} : causeCode c = causeCode d ↔ c = d := by
  cases c <;> cases d <;> decide

/-- The codes of R23, and that `0b11` is none. -/
theorem State.stState_eq_iff {c : BitVec 2} :
    s.stState = c ↔
      (s.state = .running ∧ c = 0b00) ∨ (s.state = .halted ∧ c = 0b01) ∨ (s.state = .brk ∧ c = 0b10) := by
  rcases hs : s.state <;> simp [State.stState, hs, @eq_comm _ _ c]

/-- Settles O56: each code is shown for one value only, and a `sp` below 2^31 is its own 32-bit two's-complement value. -/
theorem statusPortsShowTheState : Obligations.StatusPortsShowTheState := by
  intro s
  refine ⟨?_, ?_, ?_, ?_, rfl, rfl, causeCode_inj (d := .none), causeCode_inj (d := .breakInsn),
    causeCode_inj (d := .undefinedOpcode), causeCode_inj (d := .pcOutOfBounds), causeCode_inj (d := .immOutOfBounds),
    causeCode_inj (d := .stackOverflow), causeCode_inj (d := .stackUnderflow), causeCode_inj (d := .modByZero),
    fun hlow hhigh => ?_⟩
  · simp [State.stState_eq_iff]
  · simp [State.stState_eq_iff]
  · simp [State.stState_eq_iff]
  · simp [State.stState_eq_iff]
  · exact BitVec.toInt_ofInt_eq_self (by decide) (by omega) (by omega)

end Sys2Proof.Machine
end

section
/-! PROOFS. The statements of `spec/20_memory.md`: the reads of a step, what a step sees of the program store and of the
operand stack, and a `Push` with the `Pop` after it. -/

namespace Sys2Proof.Machine

variable {s s' t : State} {v : Word} {k : State → Result} {other : Memory}

/-! ### The addresses a fetch reads (R43) -/

/-- The 2-word opcodes, as R64 lists them. -/
theorem isTwoWord_iff {op : Opcode} : op.isTwoWord = true ↔ op ∈ [Opcode.push, .je, .jne, .jump] := by
  cases op <;> decide

theorem State.fetchAddrs_of_outside (h : s.cfg.programSize ≤ s.pc.toNat) : s.fetchAddrs = [] := by
  simp [State.fetchAddrs, h]

theorem State.fetchAddrs_of_undefined (hpc : s.pc.toNat < s.cfg.programSize)
    (hop : s.cfg.opcodes.opcodeOf (s.progRead s.pc.toNat) = none) : s.fetchAddrs = [s.pc.toNat] := by
  simp [State.fetchAddrs, hop, not_le.mpr hpc]

theorem State.fetchAddrs_of_opcode {op : Opcode} (hpc : s.pc.toNat < s.cfg.programSize)
    (hop : s.cfg.opcodes.opcodeOf (s.progRead s.pc.toNat) = some op) :
    s.fetchAddrs = s.pc.toNat ::
      if op ∈ [Opcode.push, .je, .jne, .jump] ∧ s.pc.toNat + 1 < s.cfg.programSize then [s.pc.toNat + 1] else [] := by
  simp only [State.fetchAddrs, hop, isTwoWord_iff, ge_iff_le, not_le.mpr hpc, if_false]
  split <;> rfl

/-- A fetch inside the store reads the word at `pc`. -/
theorem State.pc_mem_fetchAddrs (hpc : s.pc.toNat < s.cfg.programSize) : s.pc.toNat ∈ s.fetchAddrs := by
  rcases hop : s.cfg.opcodes.opcodeOf (s.progRead s.pc.toNat) with _ | op
  · simp [State.fetchAddrs_of_undefined hpc hop]
  · simp [State.fetchAddrs_of_opcode hpc hop]

theorem State.lt_programSize_of_mem_fetchAddrs {a : Nat} (ha : a ∈ s.fetchAddrs) : a < s.cfg.programSize := by
  obtain hout | hpc := le_or_gt s.cfg.programSize s.pc.toNat
  · simp [State.fetchAddrs_of_outside hout] at ha
  rcases hop : s.cfg.opcodes.opcodeOf (s.progRead s.pc.toNat) with _ | op
  · simp only [State.fetchAddrs_of_undefined hpc hop, List.mem_singleton] at ha
    exact ha ▸ hpc
  · rw [State.fetchAddrs_of_opcode hpc hop, List.mem_cons] at ha
    obtain rfl | ha := ha
    · exact hpc
    · split at ha
      next htwo => exact List.mem_singleton.mp ha ▸ htwo.2
      next => cases ha

@[simp] theorem State.issuedReads_of_canStep (h : s.canStep = true) : s.issuedReads = s.fetchAddrs := by
  simp [State.issuedReads, h]

@[simp] theorem State.issuedReads_of_idle (h : s.canStep = false) : s.issuedReads = [] := by
  simp [State.issuedReads, h]

/-- Settles O12: the reads are those of the fetch, by whether `pc` is inside the store and whether the word has an opcode. -/
theorem stepReadsOpcodeThenImmediate : Obligations.StepReadsOpcodeThenImmediate := by
  intro s
  refine ⟨fun a ha => ?_, fun hcan hwf op hop => ?_, fun hcan hundef => ?_⟩
  · rcases hcan : s.canStep with _ | _
    · simp [hcan] at ha
    · exact State.lt_programSize_of_mem_fetchAddrs (State.issuedReads_of_canStep hcan ▸ ha)
  · rw [State.issuedReads_of_canStep hcan]
    obtain hout | hpc := le_or_gt s.cfg.programSize s.pc.toNat
    · rw [State.fetchAddrs_of_outside hout, if_neg (by omega), if_neg (by omega), List.nil_append]
    · rw [State.fetchAddrs_of_opcode hpc (hop ▸ OpcodeMap.opcodeOf_word hwf), if_pos hpc, List.singleton_append]
  · rw [State.issuedReads_of_canStep hcan]
    obtain hout | hpc := le_or_gt s.cfg.programSize s.pc.toNat
    · rw [State.fetchAddrs_of_outside hout, if_neg (by omega)]
    · rw [State.fetchAddrs_of_undefined hpc (OpcodeMap.opcodeOf_eq_none.mpr fun op => (hundef op).symm), if_pos hpc]

/-! ### Two steps side by side -/

/-- The end of a step counts it and may move `pc`, by an amount that does not depend on the state. -/
theorem LockstepClosed.finished {R : State → State → Prop} (hc : LockstepClosed R)
    (hstate : ∀ s s', R s s' → s'.state = s.state) (hcounted : ∀ s s', R s s' → R s.counted s'.counted)
    (len : Nat) (hR : R s s') : R (s.finished len) (s'.finished len) := by
  have hstate := hstate s s' hR
  have hcounted := hcounted s s' hR
  by_cases hrun : s.state = .running
  · rw [State.finished_of_running s len hrun, State.finished_of_running s' len (hstate.trans hrun), hc.pc s s' hR]
    exact hc.atPc _ _ _ hcounted
  · rwa [State.finished_of_ended s len hrun, State.finished_of_ended s' len (hstate ▸ hrun)]

/-- A relation that every instruction keeps, as do the begin of a step and its count, is kept by a step of two machines that
can step alike and decode alike. -/
theorem step_lockstep {R : State → State → Prop} (hc : LockstepClosed R) (hR : R s s')
    (hbegun : ∀ s s', R s s' → R s.begun s'.begun)
    (hstate : ∀ s s', R s s' → s'.state = s.state) (hcounted : ∀ s s', R s s' → R s.counted s'.counted)
    (hrand : s.canStep = true → s.fetchDecode.instr = .rand →
      ∀ s s', R s s' → s'.draws = s.draws ∧ R s.drawn s'.drawn)
    (hcan : s'.canStep = s.canStep) (hdecode : s.canStep = true → s'.fetchDecode = s.fetchDecode)
    (h : step s = .next t) : ∃ t', step s' = .next t' ∧ R t t' := by
  obtain ⟨hidle, rfl⟩ | ⟨hgo, u, hu, rfl⟩ := step_cases h
  · exact ⟨_, step_of_idle (hcan.trans hidle), hbegun s s' hR⟩
  · have hdecode := hdecode hgo
    obtain ⟨u', hu', hRu⟩ := exec_lockstep hc s.fetchDecode.instr (hrand hgo) _ _ u (hbegun s s' hR) hu
    exact ⟨_, step_of_exec (hcan.trans hgo) (hdecode ▸ hu'), hdecode ▸ hc.finished hstate hcounted _ hRu⟩

/-! ### What a step sees of the program store (R43, R66) -/

/-- `s'` is `s` with the program store `other`. -/
def State.SameButProgram (other : Memory) (s s' : State) : Prop := s' = { s with program := other }

theorem State.sameButProgram_closed (other : Memory) : LockstepClosed (State.SameButProgram other) where
  sp := by rintro s _ rfl; rfl
  capacity := by rintro s _ rfl; rfl
  pc := by rintro s _ rfl; rfl
  top := by rintro s _ rfl _; rfl
  popped := by rintro s _ rfl; rfl
  pushed := by rintro s _ v rfl; rfl
  broken := by rintro s _ c rfl; rfl
  haltedNow := by rintro s _ rfl; rfl
  emitted := by rintro s _ v rfl; rfl
  atPc := by rintro s _ p rfl; rfl

/-- With a store that agrees on the addresses a fetch reads, the fetch reads the same addresses: the opcode word decides
which they are, and it is one of the words read. -/
theorem State.fetchAddrs_of_agree (h : ∀ a ∈ s.fetchAddrs, other.read a = s.program.read a) :
    { s with program := other }.fetchAddrs = s.fetchAddrs := by
  obtain hout | hpc := le_or_gt s.cfg.programSize s.pc.toNat
  · rw [State.fetchAddrs_of_outside hout]
    exact State.fetchAddrs_of_outside hout
  · have hword : other.read s.pc.toNat = s.program.read s.pc.toNat := h _ (State.pc_mem_fetchAddrs hpc)
    simp only [State.fetchAddrs, State.progRead, hword]

theorem State.fetchDecode_of_agree (h : ∀ a ∈ s.fetchAddrs, other.read a = s.program.read a) :
    { s with program := other }.fetchDecode = s.fetchDecode := by
  have hwords : { s with program := other }.fetchWords = s.fetchWords := by
    unfold State.fetchWords
    rw [State.fetchAddrs_of_agree h]
    exact List.map_congr_left h
  exact congrArg (decodeWords s.cfg.opcodes) hwords

/-- Settles O13: the two machines decode alike, and no instruction reads the store. -/
theorem stepSeesOnlyTheWordsItReads : Obligations.StepSeesOnlyTheWordsItReads := by
  intro s t other hagree h
  have hdecode (hcan : s.canStep = true) : { s with program := other }.fetchDecode = s.fetchDecode :=
    State.fetchDecode_of_agree (State.issuedReads_of_canStep hcan ▸ hagree)
  have hsame : s.SameButProgram other { s with program := other } := rfl
  obtain ⟨t', ht', rfl⟩ := step_lockstep (State.sameButProgram_closed other) hsame
    (hbegun := by rintro s _ rfl; rfl) (hstate := by rintro s _ rfl; rfl) (hcounted := by rintro s _ rfl; rfl)
    (hrand := by rintro - - s _ rfl; exact ⟨rfl, rfl⟩) (hcan := rfl) hdecode h
  exact ht'

/-! ### A `Push` and the `Pop` after it (R49) -/

/-- A `Pop` straight after a `Push` leaves the written entry, and nothing else, behind. -/
theorem State.popped_pushed : (s.pushed v).popped = { s with stack := s.stack.write (s.sp + 1).toNat v } := by
  simp [State.popped, State.pushed]

/-- Settles O14: the `Pop` reads the entry that the `Push` wrote, and writes none. -/
theorem pushThenPopGivesTheValueBack : Obligations.PushThenPopGivesTheValueBack := by
  intro s v k hlow hroom
  refine ⟨s.stack.write (s.sp + 1).toNat v, ?_, Memory.read_write_same, fun j hj => Memory.read_write_other (by omega)⟩
  have hentry : (s.pushed v).entry (s.sp + 1) = v := by simp [State.entry_pushed]
  rw [push_of_room hlow hroom, pop_of_entry (by simp; omega) hroom, State.pushed_sp, hentry, State.popped_pushed]

/-! ### Every instruction answers a next state while `sp` is in range -/

/-- From a `sp` in range, `k` answers a next state. -/
def Answers (k : State → Result) : Prop := ∀ s : State, s.SpInRange → ∃ t, k s = .next t

theorem answers_done : Answers done := fun s _ => ⟨s, rfl⟩

theorem answers_raiseBreak (c : Cause) : Answers (raiseBreak c) := fun s _ => ⟨s.broken c, rfl⟩

theorem answers_branchBy (imm : Word) : Answers (branchBy imm) := fun _ _ => ⟨_, branchBy_eq⟩

theorem answers_push (hk : Answers k) : Answers fun s => push v s k := by
  intro s ⟨hlow, _⟩
  obtain hfull | hroom := le_or_gt ((s.cfg.stackCapacity : Int) - 1) s.sp
  · exact ⟨_, push_of_full hfull⟩
  · have hroom : s.sp + 1 < s.cfg.stackCapacity := by omega
    obtain ⟨t, ht⟩ := hk (s.pushed v) ⟨by simp; omega, hroom⟩
    exact ⟨t, (push_of_room hlow hroom).trans ht⟩

theorem answers_pop {k : Word → State → Result} (hk : ∀ v, Answers (k v)) : Answers fun s => pop s k := by
  intro s ⟨_, hhigh⟩
  obtain hempty | hentry := lt_or_ge s.sp 0
  · exact ⟨_, pop_of_empty hempty⟩
  · obtain ⟨t, ht⟩ := hk (s.entry s.sp) s.popped ⟨by simp; omega, by simp; omega⟩
    exact ⟨t, (pop_of_entry hentry hhigh).trans ht⟩

theorem answers_popTwo {k : Word → Word → State → Result} (hk : ∀ a b, Answers (k a b)) : Answers fun s => popTwo s k :=
  answers_pop fun a => answers_pop (hk a)

theorem answers_branchIf (taken : Word → Bool) (imm : Word) : Answers (branchIf taken imm) := by
  refine answers_pop fun v s hs => ?_
  split
  · exact answers_branchBy imm s hs
  · exact answers_done s hs

/-- The model's own fault is not met while `sp` is in range (log entry 8), and no instruction is refused. -/
theorem exec_answers (i : Instr) : Answers (exec i) := by
  have one : ∀ v, Answers fun s => push v s done := fun _ => answers_push answers_done
  have two : ∀ v w, Answers fun s => push v s fun s => push w s done := fun _ w => answers_push (one w)
  cases i with
  | brk dcause => exact answers_raiseBreak _
  | nop => exact answers_done
  | halt => exact fun s _ => ⟨s.haltedNow, rfl⟩
  | push imm => exact one imm
  | print => exact answers_pop (k := fun v s => emit v s done) fun v s _ => ⟨s.emitted v, rfl⟩
  | jne imm => exact answers_branchIf _ imm
  | swap => exact answers_popTwo two
  | dup => exact answers_pop fun a => two a a
  | je imm => exact answers_branchIf _ imm
  | inc => exact answers_pop fun a => one (aluInc a)
  | add => exact answers_popTwo fun a b => one (aluAdd a b)
  | sub => exact answers_popTwo fun a b => one (aluSub a b)
  | mul => exact answers_popTwo fun a b => one (aluMul a b)
  | rand => exact fun s hs => one (Config.randDraw s.draws) s.drawn hs
  | dec => exact answers_pop fun a => one (aluDec a)
  | drop => exact answers_pop (k := fun _ s => done s) fun _ => answers_done
  | ovr =>
    exact answers_popTwo (k := fun a b s => push b s fun s => push a s fun s => push b s done)
      fun a b => answers_push (two a b)
  | mod =>
    refine answers_popTwo (k := fun a b s => if isZero b then raiseBreak .modByZero s else push (aluMod a b) s done)
      fun a b s hs => ?_
    split
    · exact answers_raiseBreak .modByZero s hs
    · exact one _ s hs
  | jump imm => exact answers_branchBy imm

theorem step_answers : Answers step := by
  intro s hs
  rcases hcan : s.canStep with _ | _
  · exact ⟨_, step_of_idle hcan⟩
  · obtain ⟨t, ht⟩ := exec_answers s.fetchDecode.instr s.begun hs
    exact ⟨_, step_of_exec hcan ht⟩

/-! ### Stack entries above `sp` (R54) -/

/-- What `SameBelowTop` says, with the other stack array named. -/
theorem State.sameBelowTop_iff :
    s.SameBelowTop s' ↔ ∃ m : Memory, s' = { s with stack := m } ∧ ∀ j : Nat, (j : Int) ≤ s.sp → m.read j = s.stack.read j := by
  constructor
  · exact fun ⟨h, hread⟩ => ⟨s'.stack, h, hread⟩
  · rintro ⟨m, rfl, hread⟩
    exact ⟨rfl, hread⟩

/-- A write that neither sees nor changes the stack, and leaves `sp`, keeps the relation. -/
theorem State.SameBelowTop.update (h : s.SameBelowTop s') (f : State → State)
    (hstack : ∀ (s : State) (m : Memory), f { s with stack := m } = { f s with stack := m })
    (hsp : ∀ s, (f s).sp = s.sp) : (f s).SameBelowTop (f s') := by
  obtain ⟨m, rfl, hread⟩ := State.sameBelowTop_iff.mp h
  have hkept : (f s).stack = s.stack := by simpa using congrArg State.stack (hstack s s.stack)
  exact State.sameBelowTop_iff.mpr ⟨m, hstack s m, fun j hj => hkept ▸ hread j (hsp s ▸ hj)⟩

theorem State.SameBelowTop.popped (h : s.SameBelowTop s') : s.popped.SameBelowTop s'.popped := by
  obtain ⟨m, rfl, hread⟩ := State.sameBelowTop_iff.mp h
  exact ⟨rfl, fun j hj => hread j (by simp at hj; omega)⟩

/-- The pushed entry is the only one that comes into view, and it is the same in both. -/
theorem State.SameBelowTop.pushed (v : Word) (h : s.SameBelowTop s') : (s.pushed v).SameBelowTop (s'.pushed v) := by
  obtain ⟨m, rfl, hread⟩ := State.sameBelowTop_iff.mp h
  refine ⟨rfl, fun j hj => ?_⟩
  simp only [State.pushed_sp, State.pushed_stack, Memory.read_write] at hj ⊢
  split
  next => rfl
  next hne => exact hread j (by omega)

theorem State.sameBelowTop_closed : LockstepClosed State.SameBelowTop where
  sp _ _ h := by rw [h.1]
  capacity _ _ h := by rw [h.1]
  pc _ _ h := by rw [h.1]
  top _ _ h hlow := h.2 _ (by omega)
  popped _ _ h := h.popped
  pushed _ _ v h := h.pushed v
  broken _ _ c h := h.update (State.broken c) (fun _ _ => rfl) fun _ => rfl
  haltedNow _ _ h := h.update State.haltedNow (fun _ _ => rfl) fun _ => rfl
  emitted _ _ v h := h.update (State.emitted v) (fun _ _ => rfl) fun _ => rfl
  atPc _ _ p h := h.update (State.atPc p) (fun _ _ => rfl) fun _ => rfl

/-- The stack contents that a snapshot shows end at `sp` (R33). -/
theorem State.SameBelowTop.observation (h : s.SameBelowTop s') : s.observation = s'.observation := by
  obtain ⟨m, rfl, hread⟩ := State.sameBelowTop_iff.mp h
  have hcontents : s.contents = { s with stack := m }.contents := by
    refine List.map_congr_left fun j hj => (hread j ?_).symm
    simp at hj
    omega
  simp [State.observation, State.snapshot, hcontents]

/-- Settles O51: what the micro-operations read lies at or below `sp`, and so does what the observation shows. -/
theorem entriesAboveTopAreUnobservable : Obligations.EntriesAboveTopAreUnobservable := by
  intro s s' ⟨_, hsp, _⟩ _ hsame
  obtain ⟨t, ht⟩ := step_answers s hsp
  have hcan : s'.canStep = s.canStep := by rw [hsame.1]; rfl
  have hdecode : s'.fetchDecode = s.fetchDecode := by rw [hsame.1]; rfl
  obtain ⟨t', ht', htsame⟩ := step_lockstep State.sameBelowTop_closed hsame
    (hbegun := fun _ _ h => h.update State.begun (fun _ _ => rfl) fun _ => rfl)
    (hstate := fun _ _ h => by rw [h.1])
    (hcounted := fun _ _ h => h.update State.counted (fun _ _ => rfl) fun _ => rfl)
    (hrand := fun _ _ _ _ h => ⟨by rw [h.1], h.update State.drawn (fun _ _ => rfl) fun _ => rfl⟩) hcan (fun _ => hdecode) ht
  exact ⟨hsame.observation, t, t', ht, ht', htsame, htsame.observation⟩

end Sys2Proof.Machine
end

section
/-! PROOFS. The statements of `spec/30_encoding.md`: the decoder and the encoder, the undefined words, the assembler, and that a
machine that meets the invariant always has a next state. -/

namespace Sys2Proof

variable {m : OpcodeMap} {w : Word} {op : Opcode} {rest : List Word}

/-! ### What the decoder answers (R66) -/

theorem decodeWords_of_opcode (h : m.opcodeOf w = some op) : decodeWords m (w :: rest) = decodeOpcode op rest := by
  simp [decodeWords, h]

theorem decodeWords_of_undefined (h : ∀ op, m.word op ≠ w) : decodeWords m (w :: rest) = ⟨.brk .undefinedOpcode, 1⟩ := by
  simp [decodeWords, OpcodeMap.opcodeOf_eq_none.mpr h]

/-- The opcode and the operand of a well-formed instruction give it back. -/
theorem decodeOpcode_opcode (i : Instr) (hi : i.wellFormed = true) (rest : List Word) :
    decodeOpcode i.opcode (i.immediate ++ rest) = ⟨i, i.immediate.length + 1⟩ := by
  cases i with
  | brk dcause =>
    obtain rfl : dcause = .breakInsn := by simpa [Instr.wellFormed] using hi
    rfl
  | _ => rfl

/-- Settles O1: a legal map looks its own words up, and the opcode with the operand gives the instruction. -/
theorem decodeOfEncodeIsInstruction : Obligations.DecodeOfEncodeIsInstruction := by
  intro m i rest hm hi
  calc decodeWords m (encode m i ++ rest)
      _ = decodeOpcode i.opcode (i.immediate ++ rest) := decodeWords_of_opcode (OpcodeMap.opcodeOf_word hm)
      _ = ⟨i, (encode m i).length⟩ := decodeOpcode_opcode i hi rest

/-- Everything a known opcode decodes to: a truncated `Break`, or a well-formed instruction with its operand. -/
theorem decodeOpcode_cases (op : Opcode) (rest : List Word) :
    (rest = [] ∧ decodeOpcode op rest = ⟨.brk .immOutOfBounds, 1⟩) ∨
      ∃ i tail, decodeOpcode op rest = ⟨i, i.immediate.length + 1⟩ ∧ i.opcode = op ∧ i.wellFormed = true ∧
        rest = i.immediate ++ tail := by
  cases op with
  | push | jne | je | jump =>
    cases rest with
    | nil => exact .inl ⟨rfl, rfl⟩
    | cons imm tail => exact .inr ⟨_, tail, rfl, rfl, rfl, rfl⟩
  | _ => exact .inr ⟨_, rest, rfl, rfl, rfl, rfl⟩

/-- Everything the decoder can answer: the 1-word `Break` it puts in place of what it cannot decode, or a well-formed
instruction whose encoding the words begin with. -/
theorem decodeWords_cases (m : OpcodeMap) (ws : List Word) :
    (∃ dcause, decodeWords m ws = ⟨.brk dcause, 1⟩ ∧ dcause ≠ .breakInsn) ∨
      ∃ i tail, decodeWords m ws = ⟨i, (encode m i).length⟩ ∧ i.wellFormed = true ∧ ws = encode m i ++ tail := by
  cases ws with
  | nil => exact .inl ⟨.pcOutOfBounds, rfl, nofun⟩
  | cons w rest =>
    rcases hop : m.opcodeOf w with _ | op
    · exact .inl ⟨.undefinedOpcode, decodeWords_of_undefined (OpcodeMap.opcodeOf_eq_none.mp hop), nofun⟩
    · rw [decodeWords_of_opcode hop]
      obtain ⟨-, hbreak⟩ | ⟨i, tail, hi, rfl, hwf, rfl⟩ := decodeOpcode_cases op rest
      · exact .inl ⟨.immOutOfBounds, hbreak, nofun⟩
      · exact .inr ⟨i, tail, hi, hwf, by simp [encode, OpcodeMap.word_of_opcodeOf hop]⟩

/-- Settles O2: of the decoder's answers only those of the second kind are well formed. -/
theorem decodedWordsAreTheEncoding : Obligations.DecodedWordsAreTheEncoding := by
  intro m ws i len hdecode hwf
  obtain ⟨dcause, hbreak, hcause⟩ | ⟨j, tail, hj, -, htail⟩ := decodeWords_cases m ws
  · rw [hdecode] at hbreak
    cases hbreak
    simp [Instr.wellFormed, hcause] at hwf
  · rw [hdecode] at hj
    cases hj
    exact ⟨tail, htail, rfl⟩

/-! ### Length classes (R64) -/

/-- The instructions of the 2-word format have an operand, and the others none. -/
theorem Instr.operand_cases (i : Instr) :
    (i.opcode.isTwoWord = true ∧ ∃ imm, i.immediate = [imm] ∧ (i = .push imm ∨ i = .je imm ∨ i = .jne imm ∨ i = .jump imm)) ∨
      (i.opcode.isTwoWord = false ∧ i.immediate = [] ∧
        ∀ imm, i ≠ .push imm ∧ i ≠ .je imm ∧ i ≠ .jne imm ∧ i ≠ .jump imm) := by
  cases i with
  | push imm | je imm | jne imm | jump imm => exact .inl ⟨rfl, imm, rfl, by simp⟩
  | _ => exact .inr ⟨rfl, rfl, fun _ => ⟨nofun, nofun, nofun, nofun⟩⟩

/-- Settles O3: a `Break` of the decoder is 1 word long, and any other answer is as long as its encoding. -/
theorem lengthIsTwoForImmediateOpcodes : Obligations.LengthIsTwoForImmediateOpcodes := by
  refine fun m ws => ⟨?_, ?_⟩
  · obtain ⟨dcause, hbreak, -⟩ | ⟨i, -, hi, -, -⟩ := decodeWords_cases m ws
    · rw [hbreak]
      exact .inr ⟨rfl, fun _ => ⟨nofun, nofun, nofun, nofun⟩⟩
    · rw [hi]
      obtain ⟨-, imm, himm, hshape⟩ | ⟨-, himm, hshape⟩ := i.operand_cases
      · exact .inl ⟨by simp [encode, himm], imm, hshape⟩
      · exact .inr ⟨by simp [encode, himm], hshape⟩
  · rintro w rest rfl hundef
    rw [decodeWords_of_undefined hundef]

/-! ### The table of R63 -/

/-- Settles O4: each word of the table is decoded. -/
theorem tableWordsDecode : Obligations.TableWordsDecode := ⟨by decide, by decide, by decide⟩

theorem specOpcodeMap_word_lt (op : Opcode) : (specOpcodeMap.word op).toNat < 19 := by cases op <;> decide

/-- Every word from 19 on is undefined. -/
theorem specOpcodeMap_word_ne (hw : 19 ≤ w.toNat) (op : Opcode) : specOpcodeMap.word op ≠ w := by
  rintro rfl
  exact absurd (specOpcodeMap_word_lt op) (not_lt.mpr hw)

namespace Machine

variable {s : State} {i : Instr} {imm : Word}

/-! ### A step that decodes to a `Break` (R67, R92) -/

theorem State.fetchDecode_of_undefined (hpc : s.pc.toNat < s.cfg.programSize)
    (hundef : ∀ op, s.cfg.opcodes.word op ≠ s.progRead s.pc.toNat) : s.fetchDecode = ⟨.brk .undefinedOpcode, 1⟩ := by
  unfold State.fetchDecode State.fetchWords
  rw [State.fetchAddrs_of_undefined hpc (OpcodeMap.opcodeOf_eq_none.mpr hundef)]
  exact decodeWords_of_undefined hundef

theorem step_of_break {dcause : DecodeCause} {len : Nat} (hcan : s.canStep = true)
    (hdecode : s.fetchDecode = ⟨.brk dcause, len⟩) :
    step s = .next { s.stoppedBy dcause.toCause with outPort := none } := by
  have hexec : exec s.fetchDecode.instr s.begun = .next (s.begun.broken dcause.toCause) := by rw [hdecode]; rfl
  rw [step_of_exec hcan hexec, State.finished_of_ended _ _ (by simp)]
  rfl

/-- Settles O5: no opcode has a word from 19 on, and the step of an undefined word is the step of a `Break`. -/
theorem undefinedWordEndsRunInBreak : Obligations.UndefinedWordEndsRunInBreak := by
  refine fun w hw => ⟨fun rest => decodeWords_of_undefined (specOpcodeMap_word_ne hw), fun s hmap hcan hholds => ?_⟩
  obtain ⟨hpc, hword⟩ : s.pc.toNat < s.cfg.programSize ∧ s.progRead s.pc.toNat = w := hholds 0 (by simp)
  have hundef : ∀ op, s.cfg.opcodes.word op ≠ s.progRead s.pc.toNat := by
    rw [hmap, hword]
    exact specOpcodeMap_word_ne hw
  exact ⟨_, step_of_break hcan (State.fetchDecode_of_undefined hpc hundef), rfl⟩

/-! ### Taken branches (R72, R150) -/

theorem branchIf_of_taken {taken : Word → Bool} (hlow : 0 ≤ s.sp) (hhigh : s.sp < s.cfg.stackCapacity)
    (htaken : taken (s.entry s.sp) = true) : branchIf taken imm s = .next (s.popped.atPc (s.pc + imm)) := by
  simp [branchIf, pop_of_entry hlow hhigh, htaken]

/-- `i` is a branch by `imm` that is taken from `s`. -/
def State.TakesBranch (i : Instr) (imm : Word) (s : State) : Prop :=
  i = .jump imm ∨ (0 ≤ s.sp ∧ s.sp < s.cfg.stackCapacity ∧
    ((i = .je imm ∧ s.entry s.sp = 0) ∨ (i = .jne imm ∧ s.entry s.sp ≠ 0)))

/-- A taken branch moves the pre-advance `pc`, and the machine goes on. -/
theorem exec_of_takesBranch (h : s.TakesBranch i imm) :
    ∃ u, exec i s = .next u ∧ u.state = s.state ∧ u.pc = s.pc + imm := by
  obtain rfl | ⟨hlow, hhigh, ⟨rfl, hzero⟩ | ⟨rfl, hnonzero⟩⟩ := h
  · exact ⟨_, branchBy_eq, rfl, rfl⟩
  · exact ⟨_, branchIf_of_taken hlow hhigh (by simp [jeTaken, isZero, hzero]), rfl, rfl⟩
  · exact ⟨_, branchIf_of_taken hlow hhigh (by simpa [jneTaken, isZero] using hnonzero), rfl, rfl⟩

/-- A step of a taken branch lands `imm` past the word after its operand. -/
theorem step_of_takesBranch (hcan : s.canStep = true) (hdecode : s.fetchDecode = ⟨i, 2⟩) (h : s.TakesBranch i imm) :
    ∃ t, step s = .next t ∧ t.state = .running ∧ t.pc = s.pc + imm + 2 := by
  obtain ⟨u, hu, hstate, hpc⟩ := exec_of_takesBranch (s := s.begun) h
  have hrun : u.state = .running := hstate.trans (State.canStep_iff.mp hcan).1
  refine ⟨u.finished 2, ?_, by simpa using hrun, by simp [State.finished_of_running u 2 hrun, hpc]⟩
  rw [step_of_exec hcan (t := u) (by rwa [hdecode]), hdecode]

/-- Settles O6: a branch mnemonic takes a label, and the displacement makes up for the advance by 2. -/
theorem labelDisplacementLandsOnTarget : Obligations.LabelDisplacementLandsOnTarget := by
  refine ⟨fun m labels op a target l name hop hlookup => ?_, fun s target imm hcan himm hbranch => ?_⟩
  · have htwo : op.isTwoWord = true := isTwoWord_iff.mpr (List.mem_cons_of_mem _ hop)
    have hpush : op ≠ .push := by rintro rfl; simp at hop
    simp [asmLine, asmOperand, htwo, hpush, hlookup, branchDisplacement]
  · obtain ⟨i, hdecode, htakes⟩ : ∃ i, s.fetchDecode = ⟨i, 2⟩ ∧ s.TakesBranch i imm := by
      obtain hjump | ⟨hlow, hhigh, ⟨hje, hzero⟩ | ⟨hjne, hnonzero⟩⟩ := hbranch
      · exact ⟨_, hjump, .inl rfl⟩
      · exact ⟨_, hje, .inr ⟨hlow, hhigh, .inl ⟨rfl, hzero⟩⟩⟩
      · exact ⟨_, hjne, .inr ⟨hlow, hhigh, .inr ⟨rfl, hnonzero⟩⟩⟩
    obtain ⟨t, ht, -, hpc⟩ := step_of_takesBranch hcan hdecode htakes
    have hlands : s.pc + imm + 2 = target := by rw [himm]; ring
    exact ⟨t, ht, hpc.trans hlands⟩

/-! ### The assembler (R71) -/

/-- A signed 32-bit number assembles to the word it is the value of. -/
theorem asmNumber_toInt (v : Word) : asmNumber v.toInt = some v := by
  have hlow := v.le_toInt
  have hhigh := v.toInt_lt
  simp only [asmNumber, BitVec.ofInt_toInt]
  exact if_pos ⟨by omega, by omega⟩

theorem asmLine_instrLine (m : OpcodeMap) (labels : List (String × Nat)) (a : Nat) (i : Instr) :
    asmLine m labels a (instrLine i) = some (encode m i) := by
  obtain ⟨htwo, imm, himm, -⟩ | ⟨hone, himm, -⟩ := i.operand_cases
  · simp [instrLine, himm, asmLine, htwo, asmOperand, asmNumber_toInt, encode]
  · simp [instrLine, himm, asmLine, hone, encode]

theorem instrLine_label (i : Instr) : (instrLine i).label = none := by
  unfold instrLine
  split <;> rfl

theorem asmLabels_instrLines (a : Nat) (is : List Instr) : asmLabels a (is.map instrLine) = [] := by
  induction is generalizing a with
  | nil => rfl
  | cons i is ih => simp [asmLabels, instrLine_label, ih]

theorem asmLines_instrLines (m : OpcodeMap) (labels : List (String × Nat)) (a : Nat) (is : List Instr) :
    asmLines m labels a (is.map instrLine) = some (is.flatMap (encode m)) := by
  induction is generalizing a with
  | nil => rfl
  | cons i is ih => simp [asmLines, asmLine_instrLine, ih]

/-- Settles O7: the lines define no label, and each assembles to its instruction's encoding, wherever it stands. -/
theorem assembledLinesAreTheEncodings : Obligations.AssembledLinesAreTheEncodings := by
  intro m is _
  simp [assemble, asmLabels_instrLines, asmLines_instrLines]

/-! ### The machine always has a next state (R69, R170, R180) -/

/-- Settles O48: the invariant keeps `sp` in range, and from there every step answers. -/
theorem invariantMachineAlwaysSteps : Obligations.InvariantMachineAlwaysSteps :=
  fun s ⟨_, hsp, _⟩ => step_answers s hsp

end Machine

end Sys2Proof
end

section
/-! PROOFS. The statements of `spec/40_machine_control.md`: when a step can start and when a run has ended, the count and the
advance, `Nop`, `Halt` and `Break`, the stack-effect table of R89, and the transition relation of R85. -/

namespace Sys2Proof

variable {op : Opcode} {rest : List Word}

/-! ### Truncated and complete instructions (R66, R68) -/

theorem decodeOpcode_truncated (htwo : op ∈ [Opcode.push, .je, .jne, .jump]) :
    decodeOpcode op [] = ⟨.brk .immOutOfBounds, 1⟩ := by
  cases op with
  | push | jne | je | jump => rfl
  | _ => simp at htwo

/-- An opcode whose operand, if it takes one, is among the words decodes to a well-formed instruction of that opcode. -/
theorem decodeOpcode_complete (h : op ∈ [Opcode.push, .je, .jne, .jump] → rest ≠ []) :
    (decodeOpcode op rest).instr.opcode = op ∧ (decodeOpcode op rest).instr.wellFormed = true := by
  obtain ⟨rfl, -⟩ | ⟨i, -, hi, hop, hwf, -⟩ := decodeOpcode_cases op rest
  · cases op with
    | push | jne | je | jump => simp at h
    | _ => exact ⟨rfl, rfl⟩
  · simp [hi, hop, hwf]

namespace Machine

variable {s t u : State} {i : Instr} {v imm : Word} {dcause : DecodeCause} {c : Cause} {p q p' q' : Nat} {k : State → Result}

/-! ### When a step can start, and when a run has ended (R80, R86, R88) -/

/-- Settles O9: the gate as `State.canStep_iff` says it, and an idle step writes the port only. -/
theorem noStepWithoutBudgetOrRunning : Obligations.NoStepWithoutBudgetOrRunning :=
  fun _ => ⟨State.canStep_iff, fun hidle => ⟨State.issuedReads_of_idle hidle, _, step_of_idle hidle, rfl⟩⟩

theorem State.stDone_iff :
    s.stDone = true ↔ s.state ≠ .running ∨ (s.limitEnQ = true ∧ s.stepLimitQ.toNat ≤ s.steps.toNat) := by
  simp [State.stDone]

theorem State.stDone_eq_not_canStep : s.stDone = !s.canStep := by
  rw [Bool.eq_iff_iff, Bool.not_eq_true', ← Bool.not_eq_true, State.canStep_iff, State.stDone_iff]
  simp [imp_iff_not_or]

theorem State.stDone_of_ended (h : s.state ≠ .running) : s.stDone = true := State.stDone_iff.mpr (.inl h)

/-- Either kind of success has ended the run. -/
theorem State.stOk_iff :
    s.stOk = true ↔ s.state = .halted ∨ (s.state = .running ∧ s.limitEnQ = true ∧ s.steps = s.stepLimitQ) := by
  rw [State.stOk, Bool.and_eq_true, State.stDone_iff]
  simp only [Bool.or_eq_true, Bool.and_eq_true, beq_iff_eq, and_assoc]
  constructor
  · exact fun h => h.2
  · rintro (hhalted | ⟨hrun, hlimit, hsteps⟩)
    · exact ⟨.inl (by simp [hhalted]), .inl hhalted⟩
    · exact ⟨.inr ⟨hlimit, by rw [hsteps]⟩, .inr ⟨hrun, hlimit, hsteps⟩⟩

/-- Settles O55: a `Running` machine whose run has ended has reached the limit (R86), and by the invariant it is not past it. -/
theorem endedRunFailsExactlyInBreak : Obligations.EndedRunFailsExactlyInBreak := by
  intro s ⟨_, _, _, _, hbudget, _⟩
  refine ⟨State.stOk_iff, fun hdone => ?_⟩
  rw [← Bool.not_eq_true, State.stOk_iff]
  rcases hstate : s.state with _ | _ | _
  case running =>
    obtain hended | ⟨hlimit, hreached⟩ := State.stDone_iff.mp hdone
    · exact absurd hstate hended
    · have hsteps : s.steps = s.stepLimitQ := BitVec.eq_of_toNat_eq (le_antisymm (hbudget hlimit) hreached)
      simp [hlimit, hsteps]
  case halted => simp
  case brk => simp

/-! ### The count and the advance (R83, R84) -/

/-- Settles O41: no instruction writes the count (`exec_sameFixed`), and the end of the step adds one. -/
theorem everyStepIsCountedOnce : Obligations.EveryStepIsCountedOnce := by
  intro s t hcan h
  obtain ⟨hidle, -⟩ | ⟨-, u, hu, rfl⟩ := step_cases h
  · simp [hcan] at hidle
  · obtain ⟨-, -, -, -, hsteps⟩ := exec_sameFixed hu
    simp [hsteps]

/-- Everything a conditional branch can do when it answers a next state. -/
theorem branchIf_cases {taken : Word → Bool} (h : branchIf taken imm s = .next t) :
    t = s.broken .stackUnderflow ∨ t = s.popped.atPc (s.pc + imm) ∨ t = s.popped := by
  obtain ⟨-, rfl⟩ | ⟨-, -, h⟩ := pop_cases h
  · exact .inl rfl
  · split at h
    · exact .inr (.inl (by simpa using h.symm))
    · exact .inr (.inr (done_eq_next.mp h).symm)

/-- Everything an instruction can do to the pre-advance `pc`: only a branch moves it, and then the machine goes on. -/
theorem exec_pc_cases (h : exec i s = .next t) :
    t.pc = s.pc ∨ ∃ imm, (i = .je imm ∨ i = .jne imm ∨ i = .jump imm) ∧ t.state = s.state ∧ t.pc = s.pc + imm := by
  by_cases hbranch : ∃ imm, i = .je imm ∨ i = .jne imm ∨ i = .jump imm
  · have conditional {taken : Word → Bool} {imm : Word} (h : branchIf taken imm s = .next t) :
        t.pc = s.pc ∨ t.state = s.state ∧ t.pc = s.pc + imm := by
      obtain rfl | rfl | rfl := branchIf_cases h
      · exact .inl rfl
      · exact .inr ⟨rfl, rfl⟩
      · exact .inl rfl
    obtain ⟨imm, hi⟩ := hbranch
    have hpc : t.pc = s.pc ∨ t.state = s.state ∧ t.pc = s.pc + imm := by
      obtain rfl | rfl | rfl := hi
      · exact conditional h
      · exact conditional h
      · cases h
        exact .inr ⟨rfl, rfl⟩
    exact hpc.imp_right fun hmoved => ⟨imm, hi, hmoved⟩
  · have hclosed : Closed fun u => u.pc = s.pc :=
      { popped := fun _ h _ _ => h, pushed := fun _ _ h _ _ => h, drawn := fun _ h => h, broken := fun _ _ h _ => h }
    exact .inl (exec_keeps hclosed i (fun _ _ h => h) (fun _ _ _ h => h) (fun hi => absurd hi hbranch) s t rfl h)

/-- Settles O42: the end of the step advances what `exec_pc_cases` leaves, if the machine is still `Running`. -/
theorem pcAdvancesOnlyWhileRunning : Obligations.PcAdvancesOnlyWhileRunning := by
  intro s t hcan h
  have hrun : s.state = .running := (State.canStep_iff.mp hcan).1
  obtain ⟨hidle, -⟩ | ⟨-, u, hu, rfl⟩ := step_cases h
  · simp [hcan] at hidle
  have hpc := exec_pc_cases hu
  rw [State.finished_state]
  refine ⟨fun hended => ?_, fun hgoes => ?_⟩
  · rw [State.finished_of_ended u _ hended]
    obtain hkept | ⟨-, -, hstate, -⟩ := hpc
    · exact hkept
    · exact absurd (hstate.trans hrun) hended
  · rw [State.finished_of_running u _ hgoes, State.atPc_pc]
    obtain hkept | ⟨imm, hi, -, hmoved⟩ := hpc
    · exact .inl (by rw [hkept, State.begun_pc])
    · exact .inr ⟨imm, hi, by rw [hmoved, State.begun_pc]⟩

/-! ### `Nop`, `Halt`, `Break` and a `Jump` to itself (R86, R90, R91, R92) -/

theorem step_of_decoded {len : Nat} (hcan : s.canStep = true) (hdecode : s.fetchDecode = ⟨i, len⟩)
    (h : exec i s.begun = .next t) : step s = .next (t.finished len) := by
  rw [step_of_exec hcan (t := t) (by rwa [hdecode]), hdecode]

/-- Settles O17: `Nop` answers the state it got. -/
theorem nopOnlyAdvances : Obligations.NopOnlyAdvances := by
  refine ⟨fun rest => rfl, fun s => ⟨rfl, fun hcan hdecode => ⟨_, step_of_decoded hcan hdecode rfl, ?_⟩⟩⟩
  rw [State.finished_of_running s.begun 1 (State.canStep_iff.mp hcan).1]
  rfl

/-- Settles O18: the machine is no longer `Running` at the end of the step, so `pc` stays. -/
theorem haltEndsRunInSuccess : Obligations.HaltEndsRunInSuccess := by
  refine ⟨fun rest => rfl, fun s => ⟨rfl, fun hcan hdecode => ⟨_, step_of_decoded hcan hdecode rfl, ?_⟩⟩⟩
  rw [State.finished_of_ended s.begun.haltedNow 1 nofun]
  exact ⟨rfl, State.stDone_of_ended nofun, State.stOk_iff.mpr (.inl rfl)⟩

theorem State.fetchDecode_of_outside (h : s.cfg.programSize ≤ s.pc.toNat) : s.fetchDecode = ⟨.brk .pcOutOfBounds, 1⟩ := by
  simp [State.fetchDecode, State.fetchWords, State.fetchAddrs_of_outside h, decodeWords]

/-- Settles O19: the step of any decoded `Break` is that of `step_of_break`; outside the store there is no word to read. -/
theorem breakRecordsItsCause : Obligations.BreakRecordsItsCause := by
  refine ⟨fun rest => rfl, fun s dcause => ⟨rfl, fun hcan hdecode => ?_, fun hout => ⟨State.fetchDecode_of_outside hout, ?_⟩⟩⟩
  · refine ⟨_, step_of_break hcan hdecode, rfl, State.stDone_of_ended nofun, ?_⟩
    rw [← Bool.not_eq_true, State.stOk_iff]
    simp [State.stoppedBy]
  · simp [State.issuedReads, State.fetchAddrs_of_outside hout]

theorem step_of_jump (hcan : s.canStep = true) (hdecode : s.fetchDecode = ⟨.jump imm, 2⟩) :
    step s = .next (s.begun.counted.atPc (s.pc + imm + 2)) := by
  rw [step_of_decoded hcan hdecode branchBy_eq, State.finished_of_running (s.begun.atPc _) 2 (State.canStep_iff.mp hcan).1]
  rfl

/-- Settles O54: the displacement -2 makes up for the advance by 2. -/
theorem doneMeansNoStepCanStart : Obligations.DoneMeansNoStepCanStart := by
  refine fun s => ⟨State.stDone_eq_not_canStep, State.stDone_iff, fun hrun hfree hdecode => ?_⟩
  have hback : s.pc + BitVec.ofInt 32 (-2) + 2 = s.pc := by
    rw [add_assoc, show BitVec.ofInt 32 (-2) + 2 = 0 by decide, add_zero]
  have hstep := step_of_jump (State.canStep_iff.mpr ⟨hrun, .inl hfree⟩) hdecode
  rw [hback] at hstep
  refine ⟨_, hstep, rfl, ?_⟩
  rw [State.stDone_eq_not_canStep, Bool.not_eq_false', State.canStep_iff]
  exact ⟨hrun, .inl hfree⟩

/-! ### What the pops and pushes of an instruction do (R47, R48, R89) -/

/-- From `s`, `p` pops and after them `q` pushes end in `t`, where they all complete or a pop finds the stack empty. What a
push leaves that finds it full is `exec_of_overflows`. -/
inductive State.StackEffect (p q : Nat) (s t : State) : Prop
  | completes (hpops : p ≤ s.depth) (hroom : s.depth - p + q ≤ s.cfg.stackCapacity)
      (hsp : t.sp = s.sp - p + q) (hcause : t.cause = s.cause) (hstate : t.state = s.state)
  | underflows (hpops : s.depth < p) (hsp : t.sp = -1) (hcause : t.cause = .stackUnderflow) (hstate : t.state = .brk)
  | overflows (hpops : p ≤ s.depth) (hfull : (s.cfg.stackCapacity : Int) < s.depth - p + q)

/-- The effect of the micro-operations left over at `u` is the effect of all of them at `s`, when the one in between found
what it needs and moved `sp` as it is counted. -/
theorem State.StackEffect.of_rest (h : u.StackEffect p q t) (hcap : u.cfg.stackCapacity = s.cfg.stackCapacity)
    (hcause : u.cause = s.cause) (hstate : u.state = s.state) (hpops : p ≤ u.depth ↔ p' ≤ s.depth)
    (hnet : u.sp - p + q = s.sp - p' + q') : s.StackEffect p' q' t := by
  have hs : s.depth = s.sp + 1 := rfl
  have hu : u.depth = u.sp + 1 := rfl
  cases h with
  | completes hle hroom hsp hcause' hstate' =>
    exact .completes (hpops.mp hle) (by omega) (hsp.trans hnet) (hcause'.trans hcause) (hstate'.trans hstate)
  | underflows hlt hsp hcause' hstate' => exact .underflows (by omega) hsp hcause' hstate'
  | overflows hle hfull => exact .overflows (hpops.mp hle) (by omega)

/-- `k` makes `p` pops and then `q` pushes, and nothing else in it touches `sp`, `cause` or `state`. -/
def HasStackEffect (p q : Nat) (k : State → Result) : Prop :=
  ∀ s t : State, s.SpInRange → k s = .next t → s.StackEffect p q t

/-- An update of other fields than `sp`, `cause` and `state` has no effect. -/
theorem stackEffect_update {f : State → State} (hsp : ∀ s, (f s).sp = s.sp) (hcause : ∀ s, (f s).cause = s.cause)
    (hstate : ∀ s, (f s).state = s.state) : HasStackEffect 0 0 fun s => done (f s) := by
  intro s t ⟨hlow, hhigh⟩ h
  obtain rfl := done_eq_next.mp h
  have hs : s.depth = s.sp + 1 := rfl
  exact .completes (by omega) (by omega) (by simp [hsp]) (hcause s) (hstate s)

theorem stackEffect_done : HasStackEffect 0 0 done :=
  stackEffect_update (f := id) (fun _ => rfl) (fun _ => rfl) fun _ => rfl

theorem stackEffect_push (hk : HasStackEffect 0 q k) : HasStackEffect 0 (q + 1) fun s => push v s k := by
  intro s t ⟨hlow, hhigh⟩ h
  have hs : s.depth = s.sp + 1 := rfl
  obtain ⟨hfull, -⟩ | ⟨-, hroom, h⟩ := push_cases h
  · exact .overflows (by omega) (by omega)
  · have hu : (s.pushed v).depth = s.sp + 1 + 1 := rfl
    exact (hk _ t ⟨by simp; omega, hroom⟩ h).of_rest rfl rfl rfl (by omega) (by simp; omega)

theorem stackEffect_pop {k : Word → State → Result} (hk : ∀ v, HasStackEffect p q (k v)) :
    HasStackEffect (p + 1) q fun s => pop s k := by
  intro s t ⟨hlow, hhigh⟩ h
  have hs : s.depth = s.sp + 1 := rfl
  obtain ⟨hempty, rfl⟩ | ⟨hentry, -, h⟩ := pop_cases h
  · exact .underflows (by omega) (by simp; omega) rfl rfl
  · have hu : s.popped.depth = s.sp - 1 + 1 := rfl
    exact (hk _ _ t ⟨by simp; omega, by simp; omega⟩ h).of_rest rfl rfl rfl (by omega) (by simp; omega)

theorem stackEffect_popTwo {k : Word → Word → State → Result} (hk : ∀ a b, HasStackEffect p q (k a b)) :
    HasStackEffect (p + 2) q fun s => popTwo s k := stackEffect_pop fun a => stackEffect_pop (hk a)

theorem stackEffect_branchBy (imm : Word) : HasStackEffect 0 0 (branchBy imm) :=
  stackEffect_update (f := fun s => s.atPc (s.pc + imm)) (fun _ => rfl) (fun _ => rfl) fun _ => rfl

theorem stackEffect_branchIf (taken : Word → Bool) (imm : Word) : HasStackEffect 1 0 (branchIf taken imm) := by
  refine stackEffect_pop fun v s t hs h => ?_
  split at h
  · exact stackEffect_branchBy imm s t hs h
  · exact stackEffect_done s t hs h

/-- A `Mod` that does not divide by zero has the shape of the other two-operand instructions. -/
theorem exec_mod_of_not_dividesByZero (hs : s.SpInRange) (h : ¬ s.DividesByZero .mod) :
    exec .mod s = combineTopTwo aluMod s := by
  show execMod s = combineTopTwo aluMod s
  obtain ⟨-, hhigh⟩ := hs
  unfold execMod combineTopTwo
  obtain hempty | hone | htwo : s.sp < 0 ∨ s.sp = 0 ∨ 1 ≤ s.sp := by omega
  · rw [popTwo_of_empty hempty, popTwo_of_empty hempty]
  · rw [popTwo_of_one hone (by omega), popTwo_of_one hone (by omega)]
  · have hdivisor : s.entry (s.sp - 1) ≠ 0 := fun hzero => h ⟨rfl, show 2 ≤ s.sp + 1 by omega, hzero⟩
    rw [popTwo_of_entries htwo hhigh, popTwo_of_entries htwo hhigh]
    exact if_neg (by simpa [isZero] using hdivisor)

/-- A division by zero comes after both pops (R136). -/
theorem exec_of_dividesByZero (hs : s.SpInRange) (h : s.DividesByZero i) :
    exec i s = .next (s.popped.popped.broken .modByZero) := by
  obtain ⟨-, hhigh⟩ := hs
  obtain ⟨rfl, (hdepth : 2 ≤ s.sp + 1), hzero⟩ := h
  show execMod s = _
  unfold execMod
  rw [popTwo_of_entries (by omega) hhigh]
  simp [isZero, hzero, raiseBreak]

/-- The "pops" and "pushes" columns of R89, for every instruction that does not end the run by itself. -/
theorem exec_stackEffect (hs : s.SpInRange) (hhalt : i ≠ .halt) (hbrk : ∀ dcause, i ≠ .brk dcause)
    (hzero : ¬ s.DividesByZero i) (h : exec i s = .next t) : s.StackEffect i.pops i.pushes t := by
  have one : ∀ v, HasStackEffect 0 1 fun s => push v s done := fun _ => stackEffect_push stackEffect_done
  have two : ∀ v w, HasStackEffect 0 2 fun s => push v s fun s => push w s done := fun _ w => stackEffect_push (one w)
  cases i with
  | brk dcause => exact absurd rfl (hbrk dcause)
  | nop => exact stackEffect_done s t hs h
  | halt => exact absurd rfl hhalt
  | push imm => exact one imm s t hs h
  | print =>
    exact stackEffect_pop (k := fun v s => emit v s done)
      (fun v => stackEffect_update (f := State.emitted v) (fun _ => rfl) (fun _ => rfl) fun _ => rfl) s t hs h
  | jne imm => exact stackEffect_branchIf _ imm s t hs h
  | swap => exact stackEffect_popTwo two s t hs h
  | dup => exact stackEffect_pop (fun a => two a a) s t hs h
  | je imm => exact stackEffect_branchIf _ imm s t hs h
  | inc => exact stackEffect_pop (fun a => one (aluInc a)) s t hs h
  | add => exact stackEffect_popTwo (fun a b => one (aluAdd a b)) s t hs h
  | sub => exact stackEffect_popTwo (fun a b => one (aluSub a b)) s t hs h
  | mul => exact stackEffect_popTwo (fun a b => one (aluMul a b)) s t hs h
  | rand => exact (one (Config.randDraw s.draws) s.drawn t hs h).of_rest rfl rfl rfl Iff.rfl rfl
  | dec => exact stackEffect_pop (fun a => one (aluDec a)) s t hs h
  | drop => exact stackEffect_pop (k := fun _ s => done s) (fun _ => stackEffect_done) s t hs h
  | ovr =>
    exact stackEffect_popTwo (k := fun a b s => push b s fun s => push a s fun s => push b s done)
      (fun a b => stackEffect_push (two a b)) s t hs h
  | mod =>
    rw [exec_mod_of_not_dividesByZero hs hzero] at h
    exact stackEffect_popTwo (fun a b => one (aluMod a b)) s t hs h
  | jump imm => exact stackEffect_branchBy imm s t hs h

/-! ### Overflow (R47, R89) -/

/-- Only the instructions with more pushes than pops can overflow, and only on a full stack. -/
theorem State.overflows_cases (hs : s.SpInRange) (h : s.Overflows i) :
    (s.cfg.stackCapacity : Int) - 1 ≤ s.sp ∧
      ((∃ imm, i = .push imm) ∨ i = .rand ∨ (i = .dup ∧ 0 ≤ s.sp) ∨ (i = .ovr ∧ 1 ≤ s.sp)) := by
  obtain ⟨-, hhigh⟩ := hs
  obtain ⟨hpops, hfull⟩ := h
  have hdepth : s.depth = s.sp + 1 := rfl
  cases i with
  | push imm | rand | dup | ovr => simp [Instr.pops, Instr.pushes] at hpops hfull ⊢; omega
  | _ => simp only [Instr.pops, Instr.pushes] at hpops hfull; omega

/-- Pushing the entry that already stands there changes no entry. -/
theorem State.pushed_read_of_entry (h : v = s.entry (s.sp + 1)) (j : Nat) :
    (s.pushed v).stack.read j = s.stack.read j := by
  rw [State.pushed_stack, Memory.read_write]
  split
  next hj => rw [h, hj]; rfl
  next => rfl

/-- The push that overflows comes last, when those before it have put the popped entries back. -/
theorem exec_of_overflows (hs : s.SpInRange) (h : s.Overflows i) :
    ∃ u : State, exec i s = .next (u.broken .stackOverflow) ∧ u.sp = s.sp ∧ ∀ j, u.stack.read j = s.stack.read j := by
  have ⟨_, hhigh⟩ := hs
  obtain ⟨hfull, ⟨imm, rfl⟩ | rfl | ⟨rfl, hentry⟩ | ⟨rfl, hentries⟩⟩ := State.overflows_cases hs h
  · exact ⟨s, push_of_full hfull, rfl, fun _ => rfl⟩
  · exact ⟨s.drawn, push_of_full hfull, rfl, fun _ => rfl⟩
  · refine ⟨s.popped.pushed (s.entry s.sp), ?_, by simp, State.pushed_read_of_entry (by simp)⟩
    show execDup s = _
    rw [execDup, pop_of_entry hentry hhigh, push_of_room (by simp; omega) (by simpa using hhigh),
      push_of_full (by simpa using hfull)]
  · have hback (j : Nat) : (s.popped.popped.pushed (s.entry (s.sp - 1))).stack.read j = s.stack.read j :=
      State.pushed_read_of_entry (by simp) j
    refine ⟨(s.popped.popped.pushed (s.entry (s.sp - 1))).pushed (s.entry s.sp), ?_, by simp, fun j => ?_⟩
    · show execOver s = _
      rw [execOver, popTwo_of_entries hentries hhigh, push_of_room (by simp; omega) (by simp; omega),
        push_of_room (by simp; omega) (by simp; omega), push_of_full (by simp; omega)]
    · refine (State.pushed_read_of_entry ?_ j).trans (hback j)
      exact (hback s.sp.toNat).symm.trans (by simp [State.entry])

/-! ### The stack-effect table (R89) -/

/-- The two instructions that end the run by themselves pop nothing. -/
theorem not_halt_or_brk_of_pops (h : 0 < i.pops) : i ≠ .halt ∧ ∀ dcause, i ≠ .brk dcause := by
  constructor
  · rintro rfl
    cases h
  · rintro dcause rfl
    cases h

theorem State.Underflows.not_dividesByZero (h : s.Underflows i) : ¬ s.DividesByZero i := by
  rintro ⟨rfl, hdepth, -⟩
  exact absurd h (not_lt.mpr hdepth)

/-- Settles O38: `exec_stackEffect` says what completes or underflows, `exec_of_overflows` and `exec_of_dividesByZero` what the
two later faults leave. -/
theorem stackEffectTable : Obligations.StackEffectTable := by
  intro s i hs
  obtain ⟨t, ht⟩ := exec_answers i s hs
  refine ⟨t, ht, ?_, ?_, ?_, ?_, ?_⟩
  · rintro ⟨hbrk, hunder, hover, hzero⟩
    by_cases hhalt : i = .halt
    · subst hhalt
      obtain rfl := done_eq_next.mp ht
      simp [Instr.pops, Instr.pushes]
    · cases exec_stackEffect hs hhalt hbrk hzero ht with
      | completes _ _ hsp hcause hstate => exact ⟨hsp, hcause, by rw [if_neg hhalt, hstate]⟩
      | underflows hpops => exact absurd hpops hunder
      | overflows hpops hfull => exact absurd ⟨hpops, hfull⟩ hover
  · intro hunder
    have ⟨hlow, _⟩ := hs
    have hpops : (0 : Int) < i.pops := lt_of_le_of_lt (show 0 ≤ s.sp + 1 by omega) hunder
    obtain ⟨hhalt, hbrk⟩ := not_halt_or_brk_of_pops (i := i) (by omega)
    cases exec_stackEffect hs hhalt hbrk hunder.not_dividesByZero ht with
    | underflows _ hsp hcause hstate => exact ⟨hsp, hstate, hcause⟩
    | completes hpops => exact absurd hunder (not_lt.mpr hpops)
    | overflows hpops => exact absurd hunder (not_lt.mpr hpops)
  · intro hover
    obtain ⟨u, hu, hsp, hreads⟩ := exec_of_overflows hs hover
    cases ht.symm.trans hu
    exact ⟨hsp, rfl, rfl, hreads⟩
  · intro hzero
    cases ht.symm.trans (exec_of_dividesByZero hs hzero)
    exact ⟨by simp; omega, rfl, rfl⟩
  · rintro dcause rfl
    cases ht
    exact ⟨rfl, rfl, rfl⟩

/-! ### Which `Break` a fetch decodes (R66) -/

theorem State.fetchDecode_of_opcode (hpc : s.pc.toNat < s.cfg.programSize)
    (hop : s.cfg.opcodes.opcodeOf (s.progRead s.pc.toNat) = some op) :
    s.fetchDecode = decodeOpcode op
      (if op ∈ [Opcode.push, .je, .jne, .jump] ∧ s.pc.toNat + 1 < s.cfg.programSize then
        [s.progRead (s.pc.toNat + 1)] else []) := by
  unfold State.fetchDecode State.fetchWords
  rw [State.fetchAddrs_of_opcode hpc hop, List.map_cons, decodeWords_of_opcode hop]
  split <;> rfl

/-- Everything a fetch can decode: the three `Break`s of the decoder, each where it belongs, or a well-formed instruction of
the opcode that the word at `pc` stands for. -/
theorem State.fetchDecode_cases (s : State) :
    (s.fetchDecode.instr = .brk .pcOutOfBounds ∧ s.Raises .pcOutOfBounds) ∨
      (s.fetchDecode.instr = .brk .undefinedOpcode ∧ s.Raises .undefinedOpcode) ∨
      (s.fetchDecode.instr = .brk .immOutOfBounds ∧ s.Raises .immOutOfBounds) ∨
      (s.pc.toNat < s.cfg.programSize ∧ s.cfg.opcodes.word s.fetchDecode.instr.opcode = s.progRead s.pc.toNat ∧
        s.fetchDecode.instr.wellFormed = true) := by
  obtain hout | hpc := le_or_gt s.cfg.programSize s.pc.toNat
  · exact .inl ⟨by rw [State.fetchDecode_of_outside hout], hout⟩
  rcases hop : s.cfg.opcodes.opcodeOf (s.progRead s.pc.toNat) with _ | op
  · have hundef := OpcodeMap.opcodeOf_eq_none.mp hop
    exact .inr (.inl ⟨by rw [State.fetchDecode_of_undefined hpc hundef], hpc, hundef⟩)
  · have hword := OpcodeMap.word_of_opcodeOf hop
    have complete {rest : List Word} (h : op ∈ [Opcode.push, .je, .jne, .jump] → rest ≠ []) :
        s.cfg.opcodes.word (decodeOpcode op rest).instr.opcode = s.progRead s.pc.toNat ∧
          (decodeOpcode op rest).instr.wellFormed = true := by
      obtain ⟨hopcode, hwf⟩ := decodeOpcode_complete h
      exact ⟨hopcode.symm ▸ hword, hwf⟩
    rw [State.fetchDecode_of_opcode hpc hop]
    split
    next => exact .inr (.inr (.inr ⟨hpc, complete fun _ => nofun⟩))
    next hnone =>
      by_cases htwo : op ∈ [Opcode.push, .je, .jne, .jump]
      · rw [decodeOpcode_truncated htwo]
        exact .inr (.inr (.inl ⟨rfl, le_antisymm hpc (not_lt.mp fun hroom => hnone ⟨htwo, hroom⟩), op, htwo, hword⟩))
      · exact .inr (.inr (.inr ⟨hpc, complete fun h => absurd h htwo⟩))

/-- The rows of R85 for the decoder's four causes: the event happens exactly when the fetch decodes the `Break` of that cause. -/
theorem State.raises_toCause_iff (hmap : s.cfg.opcodes.wf) :
    s.Raises dcause.toCause ↔ s.fetchDecode.instr = .brk dcause := by
  constructor
  · intro h
    cases dcause with
    | breakInsn =>
      obtain ⟨hpc, hword⟩ : s.pc.toNat < s.cfg.programSize ∧ s.progRead s.pc.toNat = 0 := h
      have hop : s.cfg.opcodes.opcodeOf (s.progRead s.pc.toNat) = some .brk := by
        rw [hword]
        exact OpcodeMap.opcodeOf_word (op := .brk) hmap
      rw [State.fetchDecode_of_opcode hpc hop]
      rfl
    | undefinedOpcode => rw [State.fetchDecode_of_undefined h.1 h.2]
    | pcOutOfBounds => rw [State.fetchDecode_of_outside h]
    | immOutOfBounds =>
      obtain ⟨hlast, op, htwo, hword⟩ := h
      have hop : s.cfg.opcodes.opcodeOf (s.progRead s.pc.toNat) = some op := hword ▸ OpcodeMap.opcodeOf_word hmap
      rw [State.fetchDecode_of_opcode (by omega) hop, if_neg (by omega), decodeOpcode_truncated htwo]
  · intro h
    obtain ⟨hi, hraises⟩ | ⟨hi, hraises⟩ | ⟨hi, hraises⟩ | ⟨hpc, hword, hwf⟩ := s.fetchDecode_cases
    · cases h.symm.trans hi
      exact hraises
    · cases h.symm.trans hi
      exact hraises
    · cases h.symm.trans hi
      exact hraises
    · rw [h] at hword hwf
      obtain rfl : dcause = .breakInsn := by simpa [Instr.wellFormed] using hwf
      exact ⟨hpc, hword.symm⟩

/-! ### The transition relation (R85) -/

/-- Each event of R85 is a fault of the stack-effect table, or a `Break` that the fetch decoded. -/
theorem exec_of_raises (hmap : s.cfg.opcodes.wf) (hsp : s.SpInRange) (hc : s.Raises c)
    (h : exec s.fetchDecode.instr s.begun = .next t) : t.state = .brk ∧ t.cause = c := by
  obtain ⟨u, hu, -, hunder, hover, hzero, hbrk⟩ := stackEffectTable s.begun s.fetchDecode.instr hsp
  cases h.symm.trans hu
  have decoded {dcause : DecodeCause} (hd : s.Raises dcause.toCause) : t.state = .brk ∧ t.cause = dcause.toCause :=
    (hbrk dcause ((State.raises_toCause_iff hmap).mp hd)).2
  cases c with
  | none => exact hc.elim
  | breakInsn => exact decoded (dcause := .breakInsn) hc
  | undefinedOpcode => exact decoded (dcause := .undefinedOpcode) hc
  | pcOutOfBounds => exact decoded (dcause := .pcOutOfBounds) hc
  | immOutOfBounds => exact decoded (dcause := .immOutOfBounds) hc
  | stackOverflow =>
    obtain ⟨-, hstate, hcause, -⟩ := hover hc
    exact ⟨hstate, hcause⟩
  | stackUnderflow => exact (hunder hc).2
  | modByZero => exact (hzero hc).2

/-- An instruction that no row of R85 gives a fault succeeds. -/
theorem exec_of_not_raises (hmap : s.cfg.opcodes.wf) (hsp : s.SpInRange) (hquiet : ∀ c, ¬ s.Raises c)
    (h : exec s.fetchDecode.instr s.begun = .next t) :
    t.cause = s.cause ∧ t.state = if s.fetchDecode.instr = .halt then .halted else s.state := by
  obtain ⟨u, hu, hsucceeds, -⟩ := stackEffectTable s.begun s.fetchDecode.instr hsp
  cases h.symm.trans hu
  have hbrk (dcause : DecodeCause) : s.fetchDecode.instr ≠ .brk dcause :=
    fun hi => hquiet _ ((State.raises_toCause_iff hmap).mpr hi)
  exact (hsucceeds ⟨hbrk, hquiet .stackUnderflow, hquiet .stackOverflow, hquiet .modByZero⟩).2

/-- Settles O39: a raised cause is recorded (`exec_of_raises`), and with none raised the machine goes on or halts
(`exec_of_not_raises`). -/
theorem transitionRelation : Obligations.TransitionRelation := by
  intro s ⟨hcfg, hsp, _, hmatch, _⟩ hcan
  obtain ⟨-, -, -, hmap⟩ := hcfg
  have hrun : s.state = .running := (State.canStep_iff.mp hcan).1
  obtain ⟨u, hu⟩ := exec_answers s.fetchDecode.instr s.begun hsp
  refine ⟨_, step_of_exec hcan hu, ?_⟩
  rw [State.finished_cause, State.finished_state]
  by_cases hraises : ∃ c, s.Raises c
  · obtain ⟨c, hc⟩ := hraises
    obtain ⟨hstate, hcause⟩ := exec_of_raises hmap hsp hc hu
    have hhalt : s.fetchDecode.instr ≠ .halt := by
      intro hi
      rw [hi] at hu
      cases hu
      simp at hstate
    refine ⟨fun d _ => ⟨fun hd => ?_, fun hd => (exec_of_raises hmap hsp hd hu).2⟩, ?_, ?_, ?_⟩
    · exact hd ▸ hcause ▸ hc
    · exact ⟨fun _ => ⟨c, hc⟩, fun _ => hstate⟩
    · simp [hstate, hhalt]
    · exact ⟨fun h => by simp [hstate] at h, fun h => absurd hc (h.2 c)⟩
  · have hquiet : ∀ c, ¬ s.Raises c := not_exists.mp hraises
    obtain ⟨hcause, hstate⟩ := exec_of_not_raises hmap hsp hquiet hu
    have hnone : u.cause = .none := hcause.trans (hmatch.mpr (by simp [hrun]))
    by_cases hhalt : s.fetchDecode.instr = .halt
    · simp [hquiet, hnone, hstate, hhalt, eq_comm]
    · simp [hquiet, hnone, hstate, hhalt, hrun, eq_comm]

end Machine

end Sys2Proof
end

section
/-! PROOFS. The statements of `spec/41_stack.md`: `Push`, `Swap`, `Dup`, `Over` and `Drop`. -/

namespace Sys2Proof.Machine

variable {s u : State} {v w : Word} {k : State → Result} {k₂ : Word → Word → State → Result}

/-! ### Popped entries pushed back

`Dup` and `Over` push back what they popped before they push the copy, so each is one `Push` onto a stack that reads as the old
one did; the list of cells behind it can be another one where the old one was not in canonical form. -/

/-- `u` is `s` but for the stack array's list of cells, which reads alike everywhere. -/
def State.SameEntries (s u : State) : Prop :=
  ∃ m : Memory, u = { s with stack := m } ∧ ∀ j, m.read j = s.stack.read j

theorem State.SameEntries.refl (s : State) : s.SameEntries s := ⟨s.stack, rfl, fun _ => rfl⟩

/-- Pushing the popped entry back undoes the `Pop`, whatever the rest of the effect did that kept every entry. -/
theorem State.SameEntries.pushed_back (h : s.popped.SameEntries u) : s.SameEntries (u.pushed (s.entry s.sp)) := by
  obtain ⟨m, rfl, hm⟩ := h
  refine ⟨m.write s.sp.toNat (s.entry s.sp), by simp [State.pushed, State.popped], fun j => ?_⟩
  rw [Memory.read_write]
  split
  next hj => exact hj ▸ rfl
  next => exact hm j

theorem State.sameEntries_pushedBack (s : State) : s.SameEntries (s.popped.pushed (s.entry s.sp)) :=
  (State.SameEntries.refl s.popped).pushed_back

theorem State.sameEntries_pushedBackTwo (s : State) :
    s.SameEntries ((s.popped.popped.pushed (s.entry (s.sp - 1))).pushed (s.entry s.sp)) :=
  (State.sameEntries_pushedBack s.popped).pushed_back

/-- Two pops made room for two pushes. -/
theorem pushTwo_of_poppedTwo (hlow : 1 ≤ s.sp) (hhigh : s.sp < s.cfg.stackCapacity) :
    (push v s.popped.popped fun s => push w s k) = k ((s.popped.popped.pushed v).pushed w) := by
  rw [push_of_room (by simp; omega) (by simp; omega), push_of_room (by simp; omega) (by simp; omega)]

/-- The array after two pops and two pushes: only the two entries that were popped are written. -/
theorem State.pushedTwo_poppedTwo :
    (s.popped.popped.pushed v).pushed w =
      { s with stack := (s.stack.write (s.sp - 1).toNat v).write s.sp.toNat w } := by
  simp [State.pushed, State.popped]

/-! ### A last `Push`, and two pops that underflow -/

/-- A last `Push` with room: one entry more, every other entry as before. -/
theorem push_done_of_room (hu : s.SameEntries u) (hlow : -1 ≤ s.sp) (hroom : s.sp ≤ (s.cfg.stackCapacity : Int) - 2) :
    ∃ t, push v u done = .next t ∧ t.sp = s.sp + 1 ∧ t.entry (s.sp + 1) = v ∧
      (∀ j : Nat, (j : Int) ≠ s.sp + 1 → t.stack.read j = s.stack.read j) ∧
      t = { s with sp := t.sp, stack := t.stack } := by
  obtain ⟨m, rfl, hm⟩ := hu
  refine ⟨_, push_of_room hlow (show s.sp + 1 < (s.cfg.stackCapacity : Int) by omega), rfl, Memory.read_write_same,
    fun j hj => ?_, rfl⟩
  exact (Memory.read_write_other (by simp only; omega)).trans (hm j)

/-- A last `Push` onto a full stack: the run ends, `sp` and every entry as before. -/
theorem push_done_of_full (hu : s.SameEntries u) (hfull : s.sp = (s.cfg.stackCapacity : Int) - 1) :
    ∃ t, push v u done = .next t ∧ t.state = .brk ∧ t.cause = .stackOverflow ∧
      (∀ j : Nat, t.stack.read j = s.stack.read j) ∧
      t = { s with state := t.state, cause := t.cause, stack := t.stack } := by
  obtain ⟨m, rfl, hm⟩ := hu
  exact ⟨_, push_of_full hfull.ge, rfl, rfl, hm, rfl⟩

/-- Two pops with one entry lose it: the second `Pop` finds the stack empty. -/
theorem popTwo_loses_one (hs : s.SpInRange) (hone : s.sp = 0) :
    popTwo s k₂ = .next { s with sp := -1, state := .brk, cause := .stackUnderflow } := by
  obtain ⟨-, hhigh⟩ := hs
  rw [popTwo_of_one hone (by omega)]
  simp [State.broken, State.popped, hone]

/-! ### The five instructions (R100 to R104) -/

theorem exec_swap : exec .swap s = popTwo s fun a b s => push a s fun s => push b s done := rfl

theorem exec_dup : exec .dup s = pop s fun a s => push a s fun s => push a s done := rfl

theorem exec_ovr : exec .ovr s = popTwo s fun a b s => push b s fun s => push a s fun s => push b s done := rfl

theorem exec_drop : exec .drop s = pop s fun _ s => done s := rfl

theorem exec_dup_of_entry (hlow : 0 ≤ s.sp) (hhigh : s.sp < s.cfg.stackCapacity) :
    exec .dup s = push (s.entry s.sp) (s.popped.pushed (s.entry s.sp)) done := by
  rw [exec_dup, pop_of_entry hlow hhigh, push_of_room (by simp; omega) (by simpa using hhigh)]

theorem exec_ovr_of_entries (hlow : 1 ≤ s.sp) (hhigh : s.sp < s.cfg.stackCapacity) :
    exec .ovr s = push (s.entry (s.sp - 1))
      ((s.popped.popped.pushed (s.entry (s.sp - 1))).pushed (s.entry s.sp)) done := by
  rw [exec_ovr, popTwo_of_entries hlow hhigh, pushTwo_of_poppedTwo hlow hhigh]

theorem exec_swap_of_entries (hlow : 1 ≤ s.sp) (hhigh : s.sp < s.cfg.stackCapacity) :
    exec .swap s =
      .next { s with stack := (s.stack.write (s.sp - 1).toNat (s.entry s.sp)).write s.sp.toNat (s.entry (s.sp - 1)) } := by
  rw [exec_swap, popTwo_of_entries hlow hhigh, pushTwo_of_poppedTwo hlow hhigh, State.pushedTwo_poppedTwo, done_eq]

/-- Settles O21: the writes are to the two popped entries, and the second leaves the first alone. -/
theorem swapExchangesTopTwo : Obligations.SwapExchangesTopTwo := by
  intro s hs
  have ⟨_, hhigh⟩ := hs
  refine ⟨fun rest => rfl, fun htwo => ?_, fun hone => exec_swap.trans (popTwo_loses_one hs hone),
    fun hempty => exec_swap.trans (popTwo_of_empty (by omega))⟩
  refine ⟨_, exec_swap_of_entries htwo hhigh, Memory.read_write_same, ?_, fun j htop hsecond => ?_, rfl⟩
  · exact (Memory.read_write_other (by omega)).trans Memory.read_write_same
  · exact (Memory.read_write_other (by omega)).trans (Memory.read_write_other (by omega))

/-- Settles O22: after the popped entry is pushed back, `Dup` is one `Push`. -/
theorem dupDuplicatesTheTop : Obligations.DupDuplicatesTheTop := by
  intro s hs
  have ⟨hlow, hhigh⟩ := hs
  refine ⟨fun rest => rfl, fun hentry hroom => ?_, fun hentry hfull => ?_,
    fun hempty => exec_dup.trans (pop_of_empty (by omega))⟩
  · rw [exec_dup_of_entry hentry hhigh]
    exact push_done_of_room s.sameEntries_pushedBack hlow hroom
  · rw [exec_dup_of_entry hentry hhigh]
    exact push_done_of_full s.sameEntries_pushedBack hfull

/-- Settles O23: after both popped entries are pushed back, `Over` is one `Push`. -/
theorem overCopiesTheSecond : Obligations.OverCopiesTheSecond := by
  intro s hs
  have ⟨hlow, hhigh⟩ := hs
  refine ⟨fun rest => rfl, fun htwo hroom => ?_, fun htwo hfull => ?_, fun hone => exec_ovr.trans (popTwo_loses_one hs hone),
    fun hempty => exec_ovr.trans (popTwo_of_empty (by omega))⟩
  · rw [exec_ovr_of_entries htwo hhigh]
    exact push_done_of_room s.sameEntries_pushedBackTwo hlow hroom
  · rw [exec_ovr_of_entries htwo hhigh]
    exact push_done_of_full s.sameEntries_pushedBackTwo hfull

/-- Settles O20: `Push` is one `Push` micro-operation (R47) onto the stack there is. -/
theorem pushPushesItsImmediate : Obligations.PushPushesItsImmediate := by
  intro s imm ⟨hlow, _⟩
  exact ⟨fun rest => rfl, rfl, push_done_of_room (.refl s) hlow, fun hfull => push_of_full hfull.ge⟩

/-- Settles O24: `Drop` is one `Pop` micro-operation (R48). -/
theorem dropDiscardsTheTop : Obligations.DropDiscardsTheTop := by
  intro s ⟨_, hhigh⟩
  exact ⟨fun rest => rfl, fun hentry => exec_drop.trans (pop_of_entry hentry hhigh),
    fun hempty => exec_drop.trans (pop_of_empty (by omega))⟩

end Sys2Proof.Machine
end

section
/-! PROOFS. The statements of `spec/42_io.md`: `Print` and `Rand`. -/

namespace Sys2Proof.Machine

variable {s : State}

theorem exec_print : exec .print s = pop s fun v s => emit v s done := rfl

theorem exec_rand : exec .rand s = push (Config.randDraw s.draws) s.drawn done := rfl

/-- Settles O26: once the draw is counted, `Rand` is one `Push` (R47), and a last `Push` with room goes the same way for every
word. -/
theorem randPushesTheDraw : Obligations.RandPushesTheDraw := by
  intro s ⟨hlow, _⟩
  refine ⟨fun rest => rfl, exec_rand, fun hroom => ?_, fun hfull => exec_rand.trans (push_of_full hfull.ge)⟩
  have hpush (r : Word) := push_done_of_room (v := r) (.refl s.drawn) hlow hroom
  exact ⟨hpush (Config.randDraw s.draws), hpush⟩

/-- Settles O25: `Print` is one `Pop` micro-operation (R48), and only one that succeeds goes on to the event. -/
theorem printEmitsTheTop : Obligations.PrintEmitsTheTop := by
  intro s ⟨_, hhigh⟩
  exact ⟨fun rest => rfl, fun hentry => exec_print.trans (pop_of_entry hentry hhigh),
    fun hempty => exec_print.trans (pop_of_empty (by omega))⟩

end Sys2Proof.Machine
end

section
/-! PROOFS. The statements of `spec/43_arithmetic.md`: `Inc`, `Dec`, `Add`, `Sub`, `Mul` and `Mod`. -/

namespace Sys2Proof.Machine

variable {s : State} {i : Instr} {a b v : Word} {f : Word → Word} {g : Word → Word → Word} {P : State → Prop}

/-! ### The ALU in integers (R130) -/

theorem toNat_aluInc : (aluInc a).toNat = (a.toNat + 1) % 2 ^ 32 := BitVec.toNat_add a 1

theorem toNat_aluAdd : (aluAdd a b).toNat = (a.toNat + b.toNat) % 2 ^ 32 := BitVec.toNat_add a b

/-- A difference below 0 wraps: the remainder is the Euclidean one. -/
theorem toNat_aluSub : ((aluSub a b).toNat : Int) = (a.toNat - b.toNat : Int) % 2 ^ 32 := by
  rw [aluSub, BitVec.toNat_sub]
  omega

theorem toNat_aluDec : ((aluDec a).toNat : Int) = (a.toNat - 1 : Int) % 2 ^ 32 := toNat_aluSub (b := 1)

theorem toNat_aluMul : (aluMul a b).toNat = (a.toNat * b.toNat) % 2 ^ 32 := BitVec.toNat_mul a b

theorem toNat_aluMod : (aluMod a b).toNat = a.toNat % b.toNat := BitVec.toNat_umod

/-! ### A result pushed over a popped entry -/

/-- The array after a pop and a push: only the entry that was popped is written. -/
theorem State.pushed_popped : s.popped.pushed v = { s with stack := s.stack.write s.sp.toNat v } := by
  simp [State.pushed, State.popped]

/-- The pop made room for the push. -/
theorem push_done_of_popped (hlow : 0 ≤ s.sp) (hhigh : s.sp < s.cfg.stackCapacity) :
    push v s.popped done = .next { s with stack := s.stack.write s.sp.toNat v } := by
  rw [push_of_room (by simp; omega) (by simpa using hhigh), done_eq, State.pushed_popped]

/-- `Inc` and `Dec`: the result stands where the operand stood. `P` is what a statement says of that result. -/
theorem exec_of_replaceTop (hexec : exec i s = replaceTop f s) (hs : s.SpInRange)
    (hP : ∀ t : State, t.entry s.sp = f (s.entry s.sp) → P t) :
    (0 ≤ s.sp →
      ∃ t, exec i s = .next t ∧ P t ∧ (∀ j : Nat, (j : Int) ≠ s.sp → t.stack.read j = s.stack.read j) ∧
        t = { s with stack := t.stack }) ∧
    (s.sp = -1 → exec i s = .next { s with state := .brk, cause := .stackUnderflow }) := by
  have ⟨_, hhigh⟩ := hs
  refine ⟨fun hentry => ?_, fun hempty => hexec.trans (pop_of_empty (by omega))⟩
  rw [hexec, replaceTop, pop_of_entry hentry hhigh, push_done_of_popped hentry hhigh]
  exact ⟨_, rfl, hP _ Memory.read_write_same, fun j hj => Memory.read_write_other (by omega), rfl⟩

/-- Two entries combined: the result stands where the second operand stood. `P` is what a statement says of that result. -/
theorem combineTopTwo_of_entries (hlow : 1 ≤ s.sp) (hhigh : s.sp < s.cfg.stackCapacity)
    (hP : ∀ t : State, t.entry (s.sp - 1) = g (s.entry s.sp) (s.entry (s.sp - 1)) → P t) :
    ∃ t, combineTopTwo g s = .next t ∧ t.sp = s.sp - 1 ∧ P t ∧
      (∀ j : Nat, (j : Int) ≠ s.sp - 1 → t.stack.read j = s.stack.read j) ∧
      t = { s with sp := t.sp, stack := t.stack } := by
  rw [combineTopTwo, popTwo_of_entries hlow hhigh, push_done_of_popped (by simpa using hlow) (by simp; omega)]
  exact ⟨_, rfl, rfl, hP _ Memory.read_write_same, fun j hj => Memory.read_write_other (by simp; omega), rfl⟩

/-- `Add`, `Sub` and `Mul`: what they do with two entries, with one and with none. -/
theorem exec_of_combineTopTwo (hexec : exec i s = combineTopTwo g s) (hs : s.SpInRange)
    (hP : ∀ t : State, t.entry (s.sp - 1) = g (s.entry s.sp) (s.entry (s.sp - 1)) → P t) :
    (1 ≤ s.sp →
      ∃ t, exec i s = .next t ∧ t.sp = s.sp - 1 ∧ P t ∧
        (∀ j : Nat, (j : Int) ≠ s.sp - 1 → t.stack.read j = s.stack.read j) ∧
        t = { s with sp := t.sp, stack := t.stack }) ∧
    (s.sp = 0 → exec i s = .next { s with sp := -1, state := .brk, cause := .stackUnderflow }) ∧
    (s.sp = -1 → exec i s = .next { s with state := .brk, cause := .stackUnderflow }) := by
  have ⟨_, hhigh⟩ := hs
  rw [hexec]
  exact ⟨fun htwo => combineTopTwo_of_entries htwo hhigh hP, popTwo_loses_one hs,
    fun hempty => popTwo_of_empty (by omega)⟩

/-! ### The six instructions (R131 to R136) -/

theorem exec_inc : exec .inc s = replaceTop aluInc s := rfl

theorem exec_dec : exec .dec s = replaceTop aluDec s := rfl

theorem exec_add : exec .add s = combineTopTwo aluAdd s := rfl

theorem exec_sub : exec .sub s = combineTopTwo aluSub s := rfl

theorem exec_mul : exec .mul s = combineTopTwo aluMul s := rfl

theorem exec_mod : exec .mod s =
    popTwo s fun a b s => if isZero b then raiseBreak .modByZero s else push (aluMod a b) s done := rfl

/-- Settles O29: the ALU's sum is pushed over the two popped operands. -/
theorem addReplacesTopTwoWithSum : Obligations.AddReplacesTopTwoWithSum := fun _ hs =>
  ⟨fun _ => rfl, exec_of_combineTopTwo exec_add hs fun _ hvalue => hvalue ▸ toNat_aluAdd⟩

/-- Settles O30: the top is the left operand of the ALU's difference (`spec/90_conflicts.md` C1). -/
theorem subReplacesTopTwoWithTopMinusSecond : Obligations.SubReplacesTopTwoWithTopMinusSecond := fun _ hs =>
  ⟨fun _ => rfl, exec_of_combineTopTwo exec_sub hs fun _ hvalue => hvalue ▸ toNat_aluSub⟩

/-- Settles O31: the low word of the product is pushed over the two popped operands. -/
theorem mulReplacesTopTwoWithLowProduct : Obligations.MulReplacesTopTwoWithLowProduct := fun _ hs =>
  ⟨fun _ => rfl, exec_of_combineTopTwo exec_mul hs fun _ hvalue => hvalue ▸ toNat_aluMul⟩

/-- Settles O32: both pops come before the zero test, and a `Mod` that passes it combines like an `Add`. -/
theorem modReplacesTopTwoWithRemainder : Obligations.ModReplacesTopTwoWithRemainder := by
  intro s hs
  have ⟨_, hhigh⟩ := hs
  refine ⟨fun rest => rfl, fun htwo hdivisor => ?_, fun htwo hzero => ?_,
    fun hone => exec_mod.trans (popTwo_loses_one hs hone), fun hempty => exec_mod.trans (popTwo_of_empty (by omega))⟩
  · rw [exec_mod_of_not_dividesByZero hs fun ⟨_, _, hzero⟩ => hdivisor hzero]
    exact combineTopTwo_of_entries htwo hhigh fun _ hvalue => hvalue ▸ toNat_aluMod
  · rw [exec_of_dividesByZero hs ⟨rfl, show 2 ≤ s.sp + 1 by omega, hzero⟩]
    simp [State.broken, State.popped, sub_sub]

/-- Settles O27: the ALU's successor is pushed over the popped operand. -/
theorem incAddsOneToTheTop : Obligations.IncAddsOneToTheTop := fun _ hs =>
  ⟨fun _ => rfl, exec_of_replaceTop exec_inc hs fun _ hvalue => hvalue ▸ toNat_aluInc⟩

/-- Settles O28: the ALU's predecessor, which wraps at 0, is pushed over the popped operand. -/
theorem decSubtractsOneFromTheTop : Obligations.DecSubtractsOneFromTheTop := fun _ hs =>
  ⟨fun _ => rfl, exec_of_replaceTop exec_dec hs fun _ hvalue => hvalue ▸ toNat_aluDec⟩

end Sys2Proof.Machine
end

section
/-! PROOFS. The statements of `spec/44_branch.md`: `JE`, `JNE` and `Jump`, and where a branch goes. -/

namespace Sys2Proof.Machine

variable {s : State} {i : Instr} {v imm : Word} {taken : Word → Bool}

/-! ### The conditions (R151, R152) -/

theorem jeTaken_eq_true : jeTaken v = true ↔ v = 0 := by simp [jeTaken, isZero]

theorem jeTaken_eq_false : jeTaken v = false ↔ v ≠ 0 := by simp [jeTaken, isZero]

theorem jneTaken_eq_true : jneTaken v = true ↔ v ≠ 0 := by simp [jneTaken, isZero]

theorem jneTaken_eq_false : jneTaken v = false ↔ v = 0 := by simp [jneTaken, isZero]

/-! ### The three instructions (R151 to R153) -/

theorem exec_je : exec (.je imm) s = branchIf jeTaken imm s := rfl

theorem exec_jne : exec (.jne imm) s = branchIf jneTaken imm s := rfl

theorem exec_jump : exec (.jump imm) s = branchBy imm s := rfl

/-- The counterpart of `branchIf_of_taken`: the popped value is consumed here too. -/
theorem branchIf_of_not_taken (hlow : 0 ≤ s.sp) (hhigh : s.sp < s.cfg.stackCapacity)
    (hstays : taken (s.entry s.sp) = false) : branchIf taken imm s = .next s.popped := by
  simp [branchIf, pop_of_entry hlow hhigh, hstays]

/-- `JE` and `JNE`: what they do with a value that passes their test, with one that fails it, and with none. -/
theorem exec_of_branchIf (hexec : exec i s = branchIf taken imm s) (hs : s.SpInRange) :
    (0 ≤ s.sp → taken (s.entry s.sp) = true → exec i s = .next { s with sp := s.sp - 1, pc := s.pc + imm }) ∧
    (0 ≤ s.sp → taken (s.entry s.sp) = false → exec i s = .next { s with sp := s.sp - 1 }) ∧
    (s.sp = -1 → exec i s = .next { s with state := .brk, cause := .stackUnderflow }) := by
  have ⟨_, hhigh⟩ := hs
  rw [hexec]
  exact ⟨fun hlow => branchIf_of_taken hlow hhigh, fun hlow => branchIf_of_not_taken hlow hhigh,
    fun hempty => pop_of_empty (by omega)⟩

/-- Settles O33: `JE` is the conditional branch whose test only 0 passes. -/
theorem jeBranchesOnZero : Obligations.JeBranchesOnZero := by
  intro s imm hs
  refine ⟨fun rest => rfl, rfl, ?_⟩
  simpa only [jeTaken_eq_true, jeTaken_eq_false] using exec_of_branchIf exec_je hs

/-- Settles O34: `JNE` is the conditional branch whose test only 0 fails. -/
theorem jneBranchesOnNonZero : Obligations.JneBranchesOnNonZero := by
  intro s imm hs
  refine ⟨fun rest => rfl, rfl, ?_⟩
  simpa only [jneTaken_eq_true, jneTaken_eq_false] using exec_of_branchIf exec_jne hs

/-- Settles O35: `Jump` writes `pc` only, and `step_of_jump` adds the count and the advance. -/
theorem jumpBranchesAlways : Obligations.JumpBranchesAlways := fun _ _ =>
  ⟨fun _ => rfl, rfl, exec_jump.trans branchBy_eq, fun hcan hdecode => ⟨_, step_of_jump hcan hdecode, rfl⟩⟩

/-! ### Where a branch goes (R150) -/

/-- The advance by 2 in integers. -/
theorem toNat_advanced (a : Word) : ((a + 2).toNat : Int) = (a.toNat + 2) % 2 ^ 32 := by
  simp [BitVec.toNat_add]

/-- The two additions of a taken branch in integers, the displacement signed. -/
theorem toNat_branchTarget (a imm : Word) : ((a + imm + 2).toNat : Int) = (a.toNat + 2 + imm.toInt) % 2 ^ 32 := by
  rw [toNat_advanced, BitVec.toNat_add, BitVec.toInt_eq_toNat_cond]
  split <;> omega

/-- The step of a conditional branch that finds an entry, whatever the test says of it. -/
theorem step_of_branchIf (hcan : s.canStep = true) (hdecode : s.fetchDecode = ⟨i, 2⟩)
    (hexec : exec i s.begun = branchIf taken imm s.begun) (hlow : 0 ≤ s.sp) (hhigh : s.sp < s.cfg.stackCapacity) :
    ∃ t, step s = .next t ∧
      (taken (s.entry s.sp) = true → (t.pc.toNat : Int) = (s.pc.toNat + 2 + imm.toInt) % 2 ^ 32) ∧
      (taken (s.entry s.sp) = false → (t.pc.toNat : Int) = (s.pc.toNat + 2) % 2 ^ 32) := by
  have hrun : s.state = .running := (State.canStep_iff.mp hcan).1
  cases htaken : taken (s.entry s.sp) with
  | true =>
    have hmoves := hexec.trans (branchIf_of_taken (s := s.begun) hlow hhigh htaken)
    refine ⟨_, step_of_decoded hcan hdecode hmoves, fun _ => ?_, nofun⟩
    rw [State.finished_of_running (s.begun.popped.atPc _) 2 hrun]
    exact toNat_branchTarget s.pc imm
  | false =>
    have hstays := hexec.trans (branchIf_of_not_taken (s := s.begun) hlow hhigh htaken)
    refine ⟨_, step_of_decoded hcan hdecode hstays, nofun, fun _ => ?_⟩
    rw [State.finished_of_running s.begun.popped 2 hrun]
    exact toNat_advanced s.pc

/-- Settles O36: `Jump` always goes to the target, `JE` and `JNE` as their tests say. -/
theorem branchTargetIsPcPlusTwoPlusDisplacement : Obligations.BranchTargetIsPcPlusTwoPlusDisplacement := by
  intro s imm hcan
  refine ⟨fun hjump => ?_, fun hlow hhigh hje => ?_, fun hlow hhigh hjne => ?_⟩
  · exact ⟨_, step_of_jump hcan hjump, toNat_branchTarget s.pc imm⟩
  · simpa only [jeTaken_eq_true, jeTaken_eq_false] using step_of_branchIf hcan hje exec_je hlow hhigh
  · simpa only [jneTaken_eq_true, jneTaken_eq_false] using step_of_branchIf hcan hjne exec_jne hlow hhigh

/-! ### A target outside the store (R154) -/

/-- A displacement reaches at most 2^31 below 0, so a target that wraps lands in the upper half, above every store (R5). -/
theorem le_toNat_branchTarget_of_wraps {size : Nat} {a : Word} (hsize : size ≤ 2 ^ 31)
    (hwraps : (a.toNat : Int) + 2 + imm.toInt < 0) : size ≤ (a + imm + 2).toNat := by
  have htarget := toNat_branchTarget a imm
  have hreach := imm.le_toInt
  omega

/-- Settles O37: the taken branch completes (`step_of_takesBranch`), and the fetch of the next step finds no word. -/
theorem badBranchTargetFaultsAtNextFetch : Obligations.BadBranchTargetFaultsAtNextFetch := by
  intro s imm ⟨⟨_, hsize, _⟩, ⟨_, hhigh⟩, _⟩ hcan hlen hbranch
  have htakes : s.TakesBranch s.fetchDecode.instr imm :=
    hbranch.imp_right fun hconditional => by
      obtain ⟨hje, hlow, hzero⟩ | ⟨hjne, hlow, hnonzero⟩ := hconditional
      · exact ⟨hlow, hhigh, .inl ⟨hje, hzero⟩⟩
      · exact ⟨hlow, hhigh, .inr ⟨hjne, hnonzero⟩⟩
  have hdecode : s.fetchDecode = ⟨s.fetchDecode.instr, 2⟩ := by rw [← hlen]
  obtain ⟨t, ht, hrun, hpc⟩ := step_of_takesBranch hcan hdecode htakes
  obtain ⟨-, -, -, hcfg⟩ := storeAndLatchNeverChange s t ht
  refine ⟨t, ht, hrun, hpc.trans (add_right_comm ..), fun hwraps => ?_, fun hout hcan' => ?_⟩
  · rw [hpc]
    exact le_toNat_branchTarget_of_wraps hsize hwraps
  · exact ⟨_, step_of_break hcan' (State.fetchDecode_of_outside (hcfg ▸ hout)), rfl⟩

end Sys2Proof.Machine
end

section
/-! PROOFS. The statements of `spec/60_exceptions.md`: the two faults of a fetch at the end of the program store, and what the
step budget does to a run. -/

namespace Sys2Proof.Machine

variable {s t : State} {op : Opcode} {n : Nat} {limit other : Count}

/-! ### Fetches at the end of the store (R174, R175) -/

/-- Settles O10: outside the store there is no word to read, and the fetch of no word decodes to the `Break` of that cause. -/
theorem fetchPastEndEndsRun : Obligations.FetchPastEndEndsRun := by
  refine fun s hcan hout => ⟨?_, _, step_of_break hcan (State.fetchDecode_of_outside hout), rfl⟩
  rw [State.issuedReads_of_canStep hcan, State.fetchAddrs_of_outside hout]

/-- In the last slot there is no operand word left to read. -/
theorem State.fetch_of_last_slot (hlast : s.pc.toNat + 1 = s.cfg.programSize)
    (hop : s.cfg.opcodes.opcodeOf (s.progRead s.pc.toNat) = some op) :
    s.fetchAddrs = [s.pc.toNat] ∧ s.fetchDecode = decodeOpcode op [] := by
  have hpc : s.pc.toNat < s.cfg.programSize := by omega
  have hnone : ¬ (op ∈ [Opcode.push, .je, .jne, .jump] ∧ s.pc.toNat + 1 < s.cfg.programSize) := by omega
  rw [State.fetchAddrs_of_opcode hpc hop, State.fetchDecode_of_opcode hpc hop, if_neg hnone, if_neg hnone]
  exact ⟨rfl, rfl⟩

/-- Settles O11: the fetch reads the opcode word only, and a 2-word opcode without its operand decodes to a `Break`. -/
theorem truncatedInstructionEndsRun : Obligations.TruncatedInstructionEndsRun := by
  intro s op hwf hcan hlast hword htwo
  obtain ⟨haddrs, hdecode⟩ := State.fetch_of_last_slot hlast (hword ▸ OpcodeMap.opcodeOf_word hwf)
  rw [decodeOpcode_truncated htwo] at hdecode
  exact ⟨by rw [State.issuedReads_of_canStep hcan, haddrs], _, step_of_break hcan hdecode, rfl⟩

/-! ### A run that uses up its budget (R184, R86) -/

/-- The run of `s` is under the budget `limit` and ends within `n` steps: it has ended, or `n` steps are left to it. -/
def State.EndsWithin (limit : Count) (n : Nat) (s : State) : Prop :=
  s.limitEnQ = true ∧ s.stepLimitQ = limit ∧ (s.state = .running → s.steps.toNat + n = limit.toNat)

theorem State.EndsWithin.stDone (h : s.EndsWithin limit 0) : s.stDone = true := by
  obtain ⟨hlimit, rfl, hleft⟩ := h
  exact State.stDone_iff.mpr (or_iff_not_imp_left.mpr fun hrun => ⟨hlimit, (hleft (not_not.mp hrun)).ge⟩)

theorem State.EndsWithin.steps_le (h : s.EndsWithin limit n) (hs : s.WithinBudget) : s.steps.toNat ≤ limit.toNat := by
  obtain ⟨hlimit, rfl, -⟩ := h
  exact hs hlimit

/-- While the budget lasts, a step starts whenever the machine is `Running`. -/
theorem State.EndsWithin.canStep_iff (h : s.EndsWithin limit (n + 1)) : s.canStep = true ↔ s.state = .running := by
  obtain ⟨-, rfl, hleft⟩ := h
  refine State.canStep_iff.trans (and_iff_left_of_imp fun hrun => .inr ?_)
  have hsum := hleft hrun
  omega

/-- A step of a `Running` machine uses up one step of the budget, and an ended machine stays ended. -/
theorem State.EndsWithin.after_step (h : s.EndsWithin limit (n + 1)) (hstep : step s = .next t) : t.EndsWithin limit n := by
  have hcan := h.canStep_iff
  obtain ⟨hlimit, hbudget, hleft⟩ := h
  obtain ⟨-, hlimit', hbudget', -⟩ := storeAndLatchNeverChange s t hstep
  refine ⟨hlimit'.trans hlimit, hbudget'.trans hbudget, fun ht => ?_⟩
  have hrun : s.state = .running := by
    by_contra hended
    obtain rfl : s.begun = t := by simpa [step_of_ended hended] using hstep
    exact hended ht
  have hsum := hleft hrun
  rw [everyStepIsCountedOnce s t (hcan.mpr hrun) hstep]
  bv_omega

/-! ### The same run without a limit (R188) -/

/-- `s` with no step limit in force, the latch's other half holding `other`. -/
def State.unlimited (other : Count) (s : State) : State := { s with limitEnQ := false, stepLimitQ := other }

/-- `s'` is `s` with no step limit in force. -/
def State.SameButUnlimited (other : Count) (s s' : State) : Prop := s' = s.unlimited other

theorem State.sameButUnlimited_closed (other : Count) : LockstepClosed (State.SameButUnlimited other) where
  sp := by rintro s _ rfl; rfl
  capacity := by rintro s _ rfl; rfl
  pc := by rintro s _ rfl; rfl
  top := by rintro s _ rfl _; rfl
  popped := by rintro s _ rfl; rfl
  pushed := by rintro s _ v rfl; rfl
  broken := by rintro s _ c rfl; rfl
  haltedNow := by rintro s _ rfl; rfl
  emitted := by rintro s _ v rfl; rfl
  atPc := by rintro s _ p rfl; rfl

/-- The limit is seen by the gate only (R80), and the gate does not see it while the budget lasts. -/
theorem State.EndsWithin.step_unlimited (h : s.EndsWithin limit (n + 1)) (hstep : step s = .next t) :
    step (s.unlimited other) = .next (t.unlimited other) := by
  have hcan : (s.unlimited other).canStep = s.canStep := by
    rw [Bool.eq_iff_iff, h.canStep_iff, State.canStep_iff]
    exact and_iff_left (.inl rfl)
  have hsame : s.SameButUnlimited other (s.unlimited other) := rfl
  obtain ⟨t', ht', rfl⟩ := step_lockstep (State.sameButUnlimited_closed other) hsame
    (hbegun := by rintro s _ rfl; rfl) (hstate := by rintro s _ rfl; rfl) (hcounted := by rintro s _ rfl; rfl)
    (hrand := by rintro - - s _ rfl; exact ⟨rfl, rfl⟩) hcan (hdecode := fun _ => rfl) hstep
  exact ht'

/-! ### Whole runs -/

/-- A run of as many steps as the budget has left reaches its end, and an unlimited run goes along with it step by step. -/
theorem run_of_endsWithin (other : Count) : ∀ {n : Nat} {s : State}, s.Inv → s.EndsWithin limit n →
    ∃ t : State, Host.Core.run Sys2Proof.core n s = .next t ∧
      Host.Core.run Sys2Proof.core n (s.unlimited other) = .next (t.unlimited other) ∧ t.Inv ∧ t.EndsWithin limit 0
  | 0, s, hinv, hends => ⟨s, rfl, rfl, hinv, hends⟩
  | n + 1, s, hinv, hends => by
    obtain ⟨u, hu⟩ := invariantMachineAlwaysSteps s hinv
    obtain ⟨t, ht, htfree, htinv, htends⟩ := run_of_endsWithin other (stepKeepsInvariant s u hinv hu) (hends.after_step hu)
    exact ⟨t, (run_of_step hu).trans ht, (run_of_step (hends.step_unlimited hu)).trans htfree, htinv, htends⟩

/-- Settles O49: by the invariant the steps taken and the steps left add up to the limit, and the end of the run meets the
invariant too. -/
theorem stepLimitEndsEveryRun : Obligations.StepLimitEndsEveryRun := by
  intro s hinv hlimit
  have ⟨_, _, _, _, hbudget, _⟩ := hinv
  have hends : s.EndsWithin s.stepLimitQ (s.stepLimitQ.toNat - s.steps.toNat) :=
    ⟨hlimit, rfl, fun _ => Nat.add_sub_of_le (hbudget hlimit)⟩
  obtain ⟨t, ht, -, ⟨_, _, _, _, htbudget, _⟩, htends⟩ := run_of_endsWithin 0 hinv hends
  exact ⟨t, ht, htends.stDone, htends.steps_le htbudget⟩

/-- A reset keeps the parameters and both memories, and sets all else the invariant speaks of. -/
theorem State.rst_inv (limitEn : Bool) (hinv : s.Inv) : (s.rst limitEn limit).Inv := by
  obtain ⟨hcfg, -, hmem, -⟩ := hinv
  have ⟨_, _, hcapacity, _⟩ := hcfg
  refine ⟨hcfg, ⟨le_rfl, ?_⟩, hmem, ?_, fun _ => Nat.zero_le _, .inl rfl⟩
  · show (-1 : Int) < s.cfg.stackCapacity
    omega
  · simp [State.CauseMatchesState, State.rst]

/-- Settles O50: a reset leaves the whole budget, `run_of_endsWithin` runs it down beside the unlimited run, and the machine
is idle from there on. -/
theorem budgetCutsTheUnlimitedRun : Obligations.BudgetCutsTheUnlimitedRun := by
  intro s n other hinv hn
  have hends : (s.rst true (BitVec.ofNat 64 n)).EndsWithin (BitVec.ofNat 64 n) n :=
    ⟨rfl, rfl, fun _ => by rw [BitVec.toNat_ofNat, Nat.mod_eq_of_lt hn]; exact Nat.zero_add n⟩
  obtain ⟨t, ht, htfree, -, htends⟩ := run_of_endsWithin other (State.rst_inv true hinv) hends
  have hidle : t.canStep = false := by simpa [State.stDone_eq_not_canStep] using htends.stDone
  exact ⟨t, ht, htfree, htends.stDone, step_of_idle hidle⟩

end Sys2Proof.Machine
end

section
/-! PROOFS. The statements of `spec/70_reset_and_hazards.md`: the run that a reset gives a budget of 0 steps. -/

namespace Sys2Proof.Machine

variable {s : State}

/-- No step has been counted at reset, so a budget of 0 steps has already been used up. -/
theorem State.rst_zero_endsWithin : (s.rst true 0).EndsWithin 0 0 := ⟨rfl, rfl, fun _ => rfl⟩

/-- Settles O53: the run of a budget of 0 ends at reset, still `Running` with the limit reached, so the machine is idle; an
idle step writes the port only, which the reset has cleared. -/
theorem limitZeroRunsNothing : Obligations.LimitZeroRunsNothing := by
  intro s
  have hdone : (s.rst true 0).stDone = true := State.rst_zero_endsWithin.stDone
  have hok : (s.rst true 0).stOk = true := State.stOk_iff.mpr (.inr ⟨rfl, rfl, rfl⟩)
  have hidle : (s.rst true 0).canStep = false := by simpa [State.stDone_eq_not_canStep] using hdone
  have hport : (s.rst true 0).begun = s.rst true 0 := rfl
  exact ⟨hdone, hok, State.issuedReads_of_idle hidle, (step_of_idle hidle).trans (congrArg _ hport)⟩

end Sys2Proof.Machine
end

section
/-! PROOFS. The statements of `spec/20_memory.md` and `spec/70_reset_and_hazards.md` about the memories as data and about a
reset: the canonical form, the loaded image, and what reset leaves. -/

namespace Sys2Proof.Machine

variable {m n : Memory} {a : Nat} {v : Word}

/-! ### The canonical form (log entry 1) -/

/-- A memory lists nothing at an index below all its cells. -/
theorem Memory.read_of_below_all (h : ∀ c ∈ m, a < c.1) : m.read a = Memory.unlisted := by
  induction m with
  | nil => rfl
  | cons c m ih =>
    obtain ⟨hc, hm⟩ := List.forall_mem_cons.mp h
    rw [Memory.read_cons, if_neg hc.ne, ih hm]

/-- The reads of a memory in canonical form say which cells it lists. -/
theorem Memory.mem_iff_read (hm : m.wf) : (a, v) ∈ m ↔ v ≠ Memory.unlisted ∧ m.read a = v := by
  obtain ⟨hsorted, hlisted⟩ := hm
  induction m with
  | nil => simp [eq_comm]
  | cons c m ih =>
    obtain ⟨hc, hsorted⟩ := List.pairwise_cons.mp hsorted
    obtain ⟨hcv, hlisted⟩ := List.forall_mem_cons.mp hlisted
    rw [List.mem_cons, ih hsorted hlisted, Memory.read_cons]
    by_cases ha : a = c.1
    · subst ha
      rw [if_pos rfl, Memory.read_of_below_all hc, Prod.ext_iff]
      constructor
      · rintro (⟨-, rfl⟩ | ⟨hv, rfl⟩)
        · exact ⟨hcv, rfl⟩
        · exact absurd rfl hv
      · rintro ⟨-, rfl⟩
        exact .inl ⟨rfl, rfl⟩
    · simp [Prod.ext_iff, ha]

/-- Settles O15: memories that read alike list the same cells, and a sorted list is determined by its members. -/
theorem equalReadsMeanEqualMemories : Obligations.EqualReadsMeanEqualMemories := by
  intro m n hm hn hread
  have hmem (c : Nat × Word) : c ∈ m ↔ c ∈ n := by
    rw [Memory.mem_iff_read hm, Memory.mem_iff_read hn, hread]
  exact List.Pairwise.eq_of_mem_iff (r := InvImage (· < ·) Prod.fst) hm.1 hn.1 hmem

/-! ### The loaded image (R202) -/

/-- Settles O16: the image is a run of writes from slot 0 into a store that lists no cell. -/
theorem loadedImageIsInTheStore : Obligations.LoadedImageIsInTheStore := by
  intro s image hfits
  have hload : (s.load image).program = Memory.writeFrom [] 0 image := by
    rw [State.load, List.take_of_length_le hfits]
  rw [hload]
  refine ⟨fun a => ?_, Memory.writeFrom_wf Memory.wf_nil image,
    Memory.writeFrom_below (List.forall_mem_nil _) image (by omega), ?_⟩
  · rw [State.progRead, hload, Memory.read_writeFrom]
    by_cases ha : a < image.length
    · simp [ha]
    · simp [ha, Memory.unlisted]
  · rw [← hload]
    rfl

/-! ### What reset leaves (R35, R36) -/

/-- Settles O52: `State.rst` writes exactly the elements that R36 lists. -/
theorem resetValues : Obligations.ResetValues :=
  fun _ _ _ => ⟨_, rfl, rfl, rfl, rfl, rfl, rfl, rfl, rfl, rfl, rfl, rfl, rfl⟩

/-- Settles O46: the reset state is one concrete state, and a reset keeps the invariant (`State.rst_inv`). -/
theorem resetMeetsInvariant : Obligations.ResetMeetsInvariant :=
  ⟨by decide, fun _ limitEn _ hinv => ⟨State.rst_inv limitEn hinv, rfl⟩⟩

end Sys2Proof.Machine
end

section
/-! PROOFS. The statements about the step as a whole and about its devices: the instruction it runs (R82), the one event of a
`Print` (R185), the random source (R186), the idle machine (R189), and the snapshot port (R33). -/

namespace Sys2Proof.Machine

variable {s t : State} {i : Instr} {v : Word} {r : Refusal}

/-! ### The instruction at `pc` (R43, R66, R82) -/

/-- Where the store holds an encoding, a fetch reads exactly its words. -/
theorem State.fetchWords_of_holdsAtPc (hmap : s.cfg.opcodes.wf) (h : s.HoldsAtPc (encode s.cfg.opcodes i)) :
    s.fetchWords = encode s.cfg.opcodes i := by
  obtain ⟨hpc, hword⟩ : s.pc.toNat < s.cfg.programSize ∧ s.progRead s.pc.toNat = s.cfg.opcodes.word i.opcode :=
    h 0 (Nat.succ_pos _)
  simp only [State.fetchWords, State.fetchAddrs_of_opcode hpc (hword ▸ OpcodeMap.opcodeOf_word hmap), ← isTwoWord_iff]
  obtain ⟨htwo, imm, himm, -⟩ | ⟨hone, himm, -⟩ := i.operand_cases
  · obtain ⟨hpc', hword'⟩ : s.pc.toNat + 1 < s.cfg.programSize ∧ s.progRead (s.pc.toNat + 1) = imm := by
      simpa [encode, himm] using h 1 (by simp [encode, himm])
    simp [encode, himm, htwo, hpc', hword, hword']
  · simp [encode, himm, hone, hword]

theorem State.fetchDecode_of_holdsAtPc (hmap : s.cfg.opcodes.wf) (hi : i.wellFormed = true)
    (h : s.HoldsAtPc (encode s.cfg.opcodes i)) : s.fetchDecode = ⟨i, (encode s.cfg.opcodes i).length⟩ := by
  rw [State.fetchDecode, State.fetchWords_of_holdsAtPc hmap h]
  simpa using decodeOfEncodeIsInstruction s.cfg.opcodes i [] hmap hi

/-! ### No refusal -/

theorem push_ne_refused {k : State → Result} (hk : ∀ s, k s ≠ .refused r) : push v s k ≠ .refused r := by
  unfold push
  split
  · nofun
  · split
    · exact hk _
    · nofun

theorem pop_ne_refused {k : Word → State → Result} (hk : ∀ v s, k v s ≠ .refused r) : pop s k ≠ .refused r := by
  unfold pop
  split
  · nofun
  · split
    · exact hk _ _
    · nofun

/-- No micro-operation refuses, so no instruction does, whatever `sp` is. -/
theorem exec_ne_refused (i : Instr) (s : State) : exec i s ≠ .refused r := by
  have one (v : Word) (s : State) : push v s done ≠ .refused r := push_ne_refused nofun
  have two (v w : Word) (s : State) : push v s (fun s => push w s done) ≠ .refused r := push_ne_refused (one w)
  have branch (taken : Word → Bool) (imm : Word) : branchIf taken imm s ≠ .refused r := by
    refine pop_ne_refused fun v s => ?_
    split <;> nofun
  cases i with
  | brk | nop | halt | jump => nofun
  | push imm => exact one imm s
  | rand => exact one _ s.drawn
  | print => exact pop_ne_refused (k := fun v s => emit v s done) nofun
  | drop => exact pop_ne_refused (k := fun _ s => done s) nofun
  | je imm | jne imm => exact branch _ imm
  | inc | dec => exact pop_ne_refused fun a => one _
  | dup => exact pop_ne_refused fun a => two a a
  | add | sub | mul => exact pop_ne_refused fun a _ => pop_ne_refused fun b => one _
  | swap => exact pop_ne_refused fun a _ => pop_ne_refused fun b => two a b
  | ovr => exact pop_ne_refused fun a _ => pop_ne_refused fun b _ => push_ne_refused (two a b)
  | mod =>
    refine pop_ne_refused fun a _ => pop_ne_refused
      (k := fun b s => if isZero b then raiseBreak .modByZero s else push (aluMod a b) s done) fun b s => ?_
    split
    · nofun
    · exact one _ s

/-! ### The step -/

theorem step_of_fault {f : Fault} (hcan : s.canStep = true) (h : exec s.fetchDecode.instr s.begun = .fault f) :
    step s = .fault f := by simp [step, hcan, h]

theorem step_ne_refused (s : State) : step s ≠ .refused r := by
  unfold step
  split
  · split
    · nofun
    · nofun
    next hexec => exact absurd hexec (exec_ne_refused _ _)
  · nofun

/-- Settles O8: the fetch reads the instruction's encoding and decodes it; `State.finished` is the count and the advance. -/
theorem stepRunsTheDecodedInstruction : Obligations.StepRunsTheDecodedInstruction := by
  intro s i hmap hi hcan hholds
  have hdecode := State.fetchDecode_of_holdsAtPc hmap hi hholds
  exact ⟨hdecode, fun t ht => step_of_decoded hcan hdecode ht, fun f hf => step_of_fault hcan (by rwa [hdecode]),
    fun r => step_ne_refused s⟩

/-! ### Events (R120, R185) -/

theorem State.output_closed (out : List Word) : Closed fun s => s.output = out where
  popped _ h _ _ := h
  pushed _ _ h _ _ := h
  drawn _ h := h
  broken _ _ h _ := h

/-- Only `Print` extends the output sequence. -/
theorem exec_output (hi : i ≠ .print) (h : exec i s = .next t) : t.output = s.output :=
  exec_keeps (State.output_closed s.output) i (fun _ _ h => h) (fun hprint => absurd hprint hi) (fun _ _ _ h => h) s t rfl h

/-- Settles O44: an idle step emits nothing; the end of a step writes neither the port nor the sequence, so what a step emits
is what its instruction does, a `Print` by `execPrint_cases`. -/
theorem onlyPrintEmits : Obligations.OnlyPrintEmits := by
  intro s t h
  obtain ⟨hidle, rfl⟩ | ⟨hcan, u, hu, rfl⟩ := step_cases h
  · exact .inr ⟨by simp [hidle], rfl, rfl⟩
  rw [State.finished_outPort, State.finished_output]
  by_cases hprint : s.fetchDecode.instr = .print
  · rw [hprint] at hu
    obtain ⟨hempty, rfl⟩ | ⟨hentry, -, rfl⟩ := execPrint_cases hu
    · exact .inr ⟨fun _ _ => hempty, rfl, rfl⟩
    · exact .inl ⟨hcan, hprint, hentry, rfl, rfl⟩
  · exact .inr ⟨fun _ h => absurd h hprint, exec_outPort_none hprint rfl hu, exec_output (s := s.begun) hprint hu⟩

/-! ### The random source (R182, R186) -/

/-- `s` has made `d` draws, and `s'` is `s` with `n` draws made. -/
def State.SameButDraws (d n : Nat) (s s' : State) : Prop := s.draws = d ∧ s' = { s with draws := n }

theorem State.sameButDraws_closed (d n : Nat) : LockstepClosed (State.SameButDraws d n) where
  sp := by rintro s _ ⟨-, rfl⟩; rfl
  capacity := by rintro s _ ⟨-, rfl⟩; rfl
  pc := by rintro s _ ⟨-, rfl⟩; rfl
  top := by rintro s _ ⟨-, rfl⟩ _; rfl
  popped := by rintro s _ ⟨hd, rfl⟩; exact ⟨hd, rfl⟩
  pushed := by rintro s _ v ⟨hd, rfl⟩; exact ⟨hd, rfl⟩
  broken := by rintro s _ c ⟨hd, rfl⟩; exact ⟨hd, rfl⟩
  haltedNow := by rintro s _ ⟨hd, rfl⟩; exact ⟨hd, rfl⟩
  emitted := by rintro s _ v ⟨hd, rfl⟩; exact ⟨hd, rfl⟩
  atPc := by rintro s _ p ⟨hd, rfl⟩; exact ⟨hd, rfl⟩

/-- Settles O45: the machine and its copy with another source decode alike and step in lockstep; the relation that goes along
also holds the number of draws. -/
theorem onlyRandSeesTheRandomSource : Obligations.OnlyRandSeesTheRandomSource := by
  intro s t n hrand h
  have hsame : s.SameButDraws s.draws n { s with draws := n } := ⟨rfl, rfl⟩
  obtain ⟨t', ht', hdraws, rfl⟩ := step_lockstep (State.sameButDraws_closed s.draws n) hsame
    (hbegun := by rintro s _ ⟨hd, rfl⟩; exact ⟨hd, rfl⟩) (hstate := by rintro s _ ⟨-, rfl⟩; rfl)
    (hcounted := by rintro s _ ⟨hd, rfl⟩; exact ⟨hd, rfl⟩)
    (hrand := fun hcan hi => absurd hi (hrand hcan)) (hcan := rfl) (hdecode := fun _ => rfl) h
  exact ⟨hdraws, ht'⟩

/-! ### The idle machine (R80, R189) -/

/-- The first of any number of idle steps ends the port's pulse, and the others change nothing. -/
theorem run_of_idle : ∀ {s : State} (n : Nat), s.canStep = false → Host.Core.run Sys2Proof.core (n + 1) s = .next s.begun
  | _, 0, hidle => run_of_step (step_of_idle hidle)
  | s, n + 1, hidle => (run_of_step (step_of_idle hidle)).trans (run_of_idle (s := s.begun) n hidle)

/-- Settles O58: an ended run is idle (R86), so it runs as `run_of_idle` says, and the gate does not read the port. -/
theorem endedRunIsIdleAndEmitsNothing : Obligations.EndedRunIsIdleAndEmitsNothing := by
  intro s n hdone
  have hidle : s.canStep = false := by simpa [State.stDone_eq_not_canStep] using hdone
  exact ⟨State.issuedReads_of_idle hidle, s.begun, run_of_idle n hidle, rfl, rfl, hdone,
    State.issuedReads_of_idle (s := s.begun) hidle⟩

/-! ### The snapshot port (R33) -/

theorem State.contents_length (s : State) : s.contents.length = (s.sp + 1).toNat := by simp [State.contents]

theorem State.contents_getElem (k : Nat) (h : k < s.contents.length) : s.contents[k] = s.entry (s.sp - k) := by
  have hk : k < (s.sp + 1).toNat := s.contents_length ▸ h
  have hindex : (s.sp + 1).toNat - 1 - k = (s.sp - k).toNat := by omega
  simp [State.contents, State.entry, hindex]

/-- Settles O57: the port compares the index with `sp`, and the contents count down from `sp`. -/
theorem snapshotShowsTheStack : Obligations.SnapshotShowsTheStack := by
  intro s idx unspecified hlow
  refine ⟨fun hin => if_pos hin, fun hout => if_neg (not_le.mpr hout), ?_, State.contents_getElem⟩
  rw [State.contents_length]
  omega

end Sys2Proof.Machine
end
